-- ==== Sys2Proof/Word.lean ====
section
/-! DEFINITION. The widths of the hardware (spec rule R6): the 32-bit word, the byte, the 64-bit command word. -/

namespace Sys2Proof

/-- The hash, seed and length word: `W` = 32 bits (R6). Every value is unsigned (R7); `+`, `*`, `^^^`, `>>>`,
`<<<`, `&&&` of `BitVec 32` are the wrapping operators of R8. -/
abbrev Word := BitVec 32

/-- One byte of the host's input buffer. -/
abbrev Byte := BitVec 8

/-- One command word, `cmd_word[63:0]` (R60). -/
abbrev CmdWord := BitVec 64

end Sys2Proof
end

