-- ==== Sys2Proof/Config.lean ====
section
/-! DEFINITION. What an implementation fixes (the OPEN latencies of R6 and R189) and the free values (the output bits
R45 leaves unspecified). Every `opaque` here has no body: no proof can see a value of it. -/

namespace Sys2Proof.Config

/-- The open part of `LAT_MAX`. -/
opaque rawLatMax : Nat

/-- `LAT_MAX`, "OPEN; a finite integer ≥ 1" (R6): any number from 1 on, by the choice of `rawLatMax`. -/
def latMax : Nat := rawLatMax + 1

/-- The open parts of the four latencies (R6). -/
opaque rawLatInit : Nat
opaque rawLatBlock : Nat
opaque rawLatFinal : Nat
opaque rawLatIllegal : Nat

/-- A latency is "an integer in `1..LAT_MAX`" (R6): every number of that range is one for some `raw`, and no other. -/
def latencyFrom (raw : Nat) : Nat := raw % latMax + 1

/-- `LAT_INIT` (R6, R189). -/
def latInit : Nat := latencyFrom rawLatInit
/-- `LAT_BLOCK` (R6, R189). -/
def latBlock : Nat := latencyFrom rawLatBlock
/-- `LAT_FINAL` (R6, R189). -/
def latFinal : Nat := latencyFrom rawLatFinal
/-- `LAT_ILLEGAL` (R6, R152, R189). -/
def latIllegal : Nat := latencyFrom rawLatIllegal

/-- The value of the `n`-th output read whose bits the spec leaves unspecified (R45; 93_implementation_defined.md rows
6 and 7: "any value", "a fresh draw on each read"). `State.draws` counts the draws. Log entry 3. -/
opaque freeOut : Nat → Word

end Sys2Proof.Config
end

