-- ==== Sys2Proof/Syntax.lean ====
section
/-! DEFINITION. The commands of the opcode table (spec rules R60 to R64), one constructor per row. -/

namespace Sys2Proof

/-- A legal command. The operands are the free fields of R62, at the widths of R60. -/
inductive Instr where
  /-- INIT (R80): `DATA` is the seed. -/
  | init (seed : Word)
  /-- BLOCK (R95): `DATA` is the block word `k`. -/
  | block (k : Word)
  /-- FINAL (R116): `TLEN` is the tail length `t`, with exactly the four values 0 to 3 (R64), and `DATA` is `d`. -/
  | final (t : BitVec 2) (d : Word)
deriving DecidableEq, Repr

end Sys2Proof
end

