-- ==== Sys2Proof/WellFormed.lean ====
section
/-! DEFINITION. Well-formedness: of a command as syntax, and of a raw command word by the match and mask table of R62.
The decoder (Decode.lean) follows R66 and does not use this file: the two are compared by an obligation. -/

namespace Sys2Proof

/-- Every command term is well formed: "any seed value is legal" (R80), every `k` is a block word (R95), and
`TLEN` "cannot encode" more than 3 while every `DATA` is allowed in FINAL (R63, R64). The types carry those bounds. -/
def Instr.wellFormed : Instr → Bool
  | .init _ => true
  | .block _ => true
  | .final _ _ => true

/-- One row of R62's table. -/
structure CommandRow where
  /-- the row's `mnemonic` in opcode_table.json -/
  mnemonic : String
  /-- the row's `mask` -/
  mask : CmdWord
  /-- the row's `match` -/
  pattern : CmdWord
deriving DecidableEq, Repr

/-- The table of R62, as opcode_table.json also gives it. -/
def commandRows : List CommandRow :=
  [⟨"INIT", 0x00000000FFFFFFFF#64, 0x0000000000000001#64⟩,
   ⟨"BLOCK", 0x00000000FFFFFFFF#64, 0x0000000000000002#64⟩,
   ⟨"FINAL", 0x00000000FFFFFFCF#64, 0x0000000000000003#64⟩]

/-- "A word `w` is that command when `(w & mask) = match`" (R62). -/
def CommandRow.holds (r : CommandRow) (w : CmdWord) : Bool := w &&& r.mask == r.pattern

/-- A command word is well formed when some row holds; "every word that matches no row is illegal" (R62). -/
def wordWellFormed (w : CmdWord) : Bool := commandRows.any (·.holds w)

end Sys2Proof
end

