-- ==== Sys2Proof/Decode.lean ====
section
/-! DEFINITION. The decoder of R66, total on all `2^64` words and rejecting by name, then the encoder from the format of
R60 to R64. -/

namespace Sys2Proof

/-- Why a word is no command: the `Illegal(cause)` of R66, whose cause is 1 or 2. -/
inductive DecodeError where
  /-- cause 1, `RESERVED_OPCODE`: `OP ∉ {0x1, 0x2, 0x3}` -/
  | reservedOpcode
  /-- cause 2, `RESERVED_FIELD`: `RSVD ≠ 0`, or `TLEN ≠ 0` outside FINAL -/
  | reservedField
deriving DecidableEq, Repr

/-- `OP`, bits 3:0 (R60). -/
def opField (w : CmdWord) : BitVec 4 := w.extractLsb' 0 4
/-- `TLEN`, bits 5:4 (R60). -/
def tlenField (w : CmdWord) : BitVec 2 := w.extractLsb' 4 2
/-- `RSVD`, bits 31:6 (R60). -/
def rsvdField (w : CmdWord) : BitVec 26 := w.extractLsb' 6 26
/-- `DATA`, bits 63:32 (R60), "used whole and unchanged" (R63). -/
def dataField (w : CmdWord) : Word := w.extractLsb' 32 32

/-- The `OP` values of R61. -/
def opInit : BitVec 4 := 0x1#4
def opBlock : BitVec 4 := 0x2#4
def opFinal : BitVec 4 := 0x3#4

/-- R66, its checks in the order written there. -/
def decode (w : CmdWord) : Except DecodeError Instr :=
  if opField w ≠ opInit ∧ opField w ≠ opBlock ∧ opField w ≠ opFinal then .error .reservedOpcode
  else if rsvdField w ≠ 0#26 then .error .reservedField
  else if opField w ≠ opFinal ∧ tlenField w ≠ 0#2 then .error .reservedField
  else if opField w = opInit then .ok (.init (dataField w))
  else if opField w = opBlock then .ok (.block (dataField w))
  else .ok (.final (tlenField w) (dataField w))

/-- The format of R60: `{DATA, RSVD, TLEN, OP}` with `RSVD = 0` (R65). -/
def packCommand (data : Word) (tlen : BitVec 2) (op : BitVec 4) : CmdWord :=
  data ++ (0#26 : BitVec 26) ++ tlen ++ op

/-- The word of a command (R60 to R64). -/
def encode : Instr → CmdWord
  | .init seed => packCommand seed 0#2 opInit
  | .block k => packCommand k 0#2 opBlock
  | .final t d => packCommand d t opFinal

/-- The command word given by its low `nbits` bits, the bits above them 0. A command is one 64-bit word with no byte
order of its own (R42, R68), so the table's bit numbers are `cmd_word`'s. -/
def tableWord (nbits w : Nat) : CmdWord := BitVec.ofNat 64 (w % 2 ^ nbits)

/-- What the decoder reads from a word of the opcode table, numbered as the table numbers its bits. -/
def decodeTableWord (nbits w : Nat) : Option Instr :=
  match decode (tableWord nbits w) with
  | .ok i => some i
  | .error _ => none

end Sys2Proof
end

