-- ==== Sys2Proof/Machine/State.lean ====
section
/-! DEFINITION. The state of one block (R20), the command in flight (R25, R29), and the host that drives it (R3, R26,
R190), as plain data; the faults and refusals; the state after reset (R181). -/

namespace Sys2Proof.Machine

/-- The cause of an illegal command (R150), in the order of priority of R151. -/
inductive Cause where
  /-- `0b01`, `RESERVED_OPCODE` -/
  | reservedOpcode
  /-- `0b10`, `RESERVED_FIELD` -/
  | reservedField
  /-- `0b11`, `NOT_ACTIVE` -/
  | notActive
deriving DecidableEq, Repr

/-- Why a run of a host program stops. The block itself never stops (R152): no meaning and no step answers a fault. -/
inductive Fault where
  /-- An illegal command completed in a run of a host program: "a fault of that run" (R163, R145). Raised by
  `runProgram` (Machine/HostProgram.lean) alone. Safe: the block goes on (R152), and claims about such runs are only
  given up. -/
  | illegalCommand (c : Cause)
deriving DecidableEq, Repr

/-- Why the model gives no meaning. -/
inductive Refusal where
  /-- An instruction of the table without a meaning in `exec`. Safe. No arm of this model raises it. -/
  | notModelled (mnemonic : String)
  /-- The host changed `cmd_word` or `cmd_valid` while `cmd_valid = 1` and `cmd_ready = 0`: "a model does not admit the
  change" (R186; 93_implementation_defined.md row 11). Raised by `runPins` (Machine/Clock.lean) alone. Safe. -/
  | commandChanged
  /-- A chained run would read bytes the host's buffer does not hold (R141, R144; log entry 8): the spec gives no byte
  there. Raised by `chainRun` (Machine/HostProgram.lean) alone. Safe. -/
  | outsideBuffer
deriving DecidableEq, Repr

/-- One thing the host does in the untimed model (R190). A host program of R145 is a list of `present` moves. -/
inductive HostMove where
  /-- present a command, which is accepted and completes (R42, R44) -/
  | present (w : CmdWord)
  /-- a reset edge between two commands (R190) -/
  | reset
  /-- present a command, which is accepted, and reset "instead of a command's completion" (R190, R181) -/
  | resetDuring (w : CmdWord)
deriving DecidableEq, Repr

/-- The command in flight: the word sampled at the accepting edge (R42, R56) and how many edges are left until the one
at which it completes (R189). -/
structure InFlight where
  word : CmdWord
  left : Nat
deriving DecidableEq, Repr

/-- The state: R20's registers and flags, the command in flight, the reset cycle of R45, and the host's script. -/
@[ext]
structure State where
  /-- `H`, the accumulator (R21) -/
  h : Word
  /-- `LEN`, the bytes absorbed modulo `2^32` (R22) -/
  len : Word
  /-- `ACTIVE` (R24) -/
  active : Bool
  /-- `DONE` (R24) -/
  done : Bool
  /-- `ERR` (R24) -/
  err : Bool
  /-- `ECAUSE` (R24, R150) -/
  ecause : BitVec 2
  /-- The home of `BUSY` (R25): `BUSY = 1` exactly when a command is in flight (`State.busy`). -/
  inFlight : Option InFlight
  /-- The latest rising edge was a reset edge: R45's reset cycle goes on "until the first edge after it". No register of
  R20: it tells only which output reads are unspecified (log entry 6). -/
  justReset : Bool
  /-- the host's script (R26: "a finite list of commands") -/
  program : List HostMove
  /-- the host's position in it (R26: "a list index as its position") -/
  position : Nat
  /-- The MODEL'S OWN field: how many unspecified output values have been drawn (log entry 3). -/
  draws : Nat
deriving DecidableEq, Repr

/-- The state after a reset edge (R181; R20's reset values), with an empty script: nothing is presented. The next edge has
not come yet, so R45's reset cycle goes on. -/
def State.reset : State where
  h := 0x00000000#32
  len := 0x00000000#32
  active := false
  done := false
  err := false
  ecause := 0b00#2
  inFlight := none
  justReset := true
  program := []
  position := 0
  draws := 0

end Sys2Proof.Machine
end

