-- ==== Sys2Proof/Machine/Flags.lean ====
section
/-! DEFINITION. The flags as the host sees them (R23, R25) and the cause codes (R150). No arithmetic sets a flag (R24). -/

namespace Sys2Proof.Machine

/-- `BUSY` (R25): a command has been accepted and has not completed. -/
def State.busy (s : State) : Bool := s.inFlight.isSome

/-- The `ECAUSE` code of a cause (R150). -/
def Cause.code : Cause → BitVec 2
  | .reservedOpcode => 0b01#2
  | .reservedField => 0b10#2
  | .notActive => 0b11#2

/-- The cause of a word that does not decode (R66, R150). -/
def causeOfDecodeError : DecodeError → Cause
  | .reservedOpcode => .reservedOpcode
  | .reservedField => .reservedField

/-- The STATUS word of R23: `{0, ECAUSE, ERR, DONE, ACTIVE, BUSY}`. -/
def statusWord (s : State) : Word :=
  (0#26 : BitVec 26) ++ s.ecause ++ BitVec.ofBool s.err ++ BitVec.ofBool s.done ++ BitVec.ofBool s.active
    ++ BitVec.ofBool s.busy

end Sys2Proof.Machine
end

