-- ==== Sys2Proof/Machine/Operands.lean ====
section
/-! DEFINITION. The conversions and operand forms: R8's rotate, R9's conversions, R110's tail packing. -/

namespace Sys2Proof.Machine

/-- `rotl32(x, r)`, for `0 < r < 32`: `(x << r) | (x >> (32 - r))` (R8). -/
def rotl32 (x : Word) (r : Nat) : Word := (x <<< r) ||| (x >>> (32 - r))

/-- `x ^ (x >> n)`, the step of the avalanche mix; `>>` is a logical shift (R8, R114). -/
def xorShiftRight (x : Word) (n : Nat) : Word := x ^^^ (x >>> n)

/-- `trunc32(n)` is `n mod 2^32` (R9). -/
def trunc32 (n : Nat) : Word := BitVec.ofNat 32 n

/-- `zext_32(v)` (R9). -/
def zext32 {n : Nat} (v : BitVec n) : Word := v.setWidth 32

/-- `le32(b0, b1, b2, b3)` is `{b3, b2, b1, b0}` (R9). -/
def le32 (b0 b1 b2 b3 : Byte) : Word := b3 ++ b2 ++ b1 ++ b0

/-- Byte `i` of a word, `x[8i+7:8i]` (R46, R47). -/
def byteOf (x : Word) (i : Nat) : Byte := x.extractLsb' (8 * i) 8

/-- `pack_tail(d, t)` (R110): the bits of `d` above byte `t-1` never reach the result. -/
def packTail (d : Word) (t : BitVec 2) : Word :=
  if t = 0#2 then 0x00000000#32
  else if t = 1#2 then zext32 (d.extractLsb' 0 8)
  else if t = 2#2 then zext32 (d.extractLsb' 0 16)
  else zext32 (d.extractLsb' 0 24)

end Sys2Proof.Machine
end

