-- ==== Sys2Proof/Machine/Ops.lean ====
section
/-! DEFINITION. The named operations over the state: register writes, completion, the one exception (R150 to R152),
acceptance (R42), reset (R181), the host's position. There is no return from the exception (R154). -/

namespace Sys2Proof.Machine

/-- `H <- v` (R21). -/
def State.writeH (s : State) (v : Word) : State := { s with h := v }

/-- `LEN <- v` (R22). -/
def State.writeLen (s : State) (v : Word) : State := { s with len := v }

/-- `ACTIVE <- a` and `DONE <- d` (R24). -/
def State.writeSession (s : State) (a d : Bool) : State := { s with active := a, done := d }

/-- The error recording of R152: only the first illegal command since reset is recorded (R24). -/
def State.recordError (s : State) (c : Cause) : State :=
  if s.err then s else { s with err := true, ecause := c.code }

/-- "`BUSY` returns to 0 at the same edge" as a command's writes take effect (R44). -/
def State.finish (s : State) : State := { s with inFlight := none }

/-- The host moves on in its script (R26). -/
def State.advance (s : State) : State := { s with position := s.position + 1 }

/-- A rising edge with `rst = 0` ends R45's reset cycle. -/
def State.leaveReset (s : State) : State := { s with justReset := false }

/-- A reset edge (R181): every register and flag of R20 takes its reset value, a command in flight is abandoned, and R45's
reset cycle begins. The host is another agent (R3) and keeps its script, position and draw count (log entry 11). -/
def State.resetBlock (s : State) : State :=
  { s with h := State.reset.h, len := State.reset.len, active := State.reset.active, done := State.reset.done,
           err := State.reset.err, ecause := State.reset.ecause, inFlight := State.reset.inFlight,
           justReset := State.reset.justReset }

/-- TAKING THE EXCEPTION, `raise IllegalCommand(cause)` (R10, R150, R152): the command completes, its own writes are
abandoned, and only the error is recorded. -/
def raiseIllegal (c : Cause) (s : State) : Host.Outcome State Fault Refusal := .next (s.recordError c).finish

/-- A command that needs no session completes with its writes in `t` (R44). -/
def completeWith (t : State) : Host.Outcome State Fault Refusal := .next t.finish

/-- A command that needs `ACTIVE = 1` (R24, R150 cause 3): its writes are in `t` when a session is open. -/
def completeActive (s t : State) : Host.Outcome State Fault Refusal :=
  if s.active then completeWith t else raiseIllegal .notActive s

/-- Does the command need an open session? "BLOCK and FINAL need `ACTIVE = 1`" (R24). -/
def needsSession : Instr → Bool
  | .init _ => false
  | .block _ => true
  | .final _ _ => true

/-- The cause for which word `w` is illegal at state `s`, if it is (R150), the first that applies (R151). -/
def illegalCause (w : CmdWord) (s : State) : Option Cause :=
  match decode w with
  | .error e => some (causeOfDecodeError e)
  | .ok i => if needsSession i && !s.active then some .notActive else none

/-- The latency of a legal command (R189). -/
def legalLatency : Instr → Nat
  | .init _ => Config.latInit
  | .block _ => Config.latBlock
  | .final _ _ => Config.latFinal

/-- How many edges after its acceptance the command in word `w` completes (R189); `LAT_ILLEGAL` for every cause of
`IllegalCommand` (R152; log entry 4). -/
def latencyOf (w : CmdWord) (s : State) : Nat :=
  match illegalCause w s, decode w with
  | none, .ok i => legalLatency i
  | _, _ => Config.latIllegal

/-- The block accepts the command word `w` (R42): it samples `w`, and `BUSY` is 1 from this edge on (R25). -/
def State.accept (s : State) (w : CmdWord) : State := { s with inFlight := some ⟨w, latencyOf w s⟩ }

end Sys2Proof.Machine
end

