-- ==== Sys2Proof/Machine/Block.lean ====
section
/-! DEFINITION. The block_processor (R90 to R94) and BLOCK (R95). -/

namespace Sys2Proof.Machine

/-- `c1` (R90). -/
def c1 : Word := 0xcc9e2d51#32
/-- `c2` (R90). -/
def c2 : Word := 0x1b873593#32
/-- `RK`, the rotate amount of `kmix` (R90). -/
def rotK : Nat := 15
/-- `RH`, the rotate amount of `block_mix` (R90). -/
def rotH : Nat := 13
/-- `M`, the multiplier (R90). -/
def mulM : Word := 5#32
/-- `N`, the round constant (R90). -/
def addN : Word := 0xe6546b64#32

/-- `kmix(k)` (R92), shared by the block_processor and the tail_processor. -/
def kmix (k : Word) : Word :=
  let k1 := k * c1
  let k2 := rotl32 k1 rotK
  k2 * c2

/-- `block_mix(h, k)` (R93). -/
def blockMix (h k : Word) : Word :=
  let h1 := h ^^^ kmix k
  let h2 := rotl32 h1 rotH
  h2 * mulM + addN

/-- BLOCK (R95): `H <- block_mix(H, k)`, `LEN <- LEN + 4`; cause 3 when no session is open. -/
def execBlock (k : Word) (s : State) : Host.Outcome State Fault Refusal :=
  completeActive s ((s.writeH (blockMix s.h k)).writeLen (s.len + 4#32))

end Sys2Proof.Machine
end

