-- ==== Sys2Proof/Machine/Final.lean ====
section
/-! DEFINITION. The tail_processor (R110 to R112), the finaliser (R113 to R115) and FINAL (R116). -/

namespace Sys2Proof.Machine

/-- `f1` (R113). -/
def f1 : Word := 0x85ebca6b#32
/-- `f2` (R113). -/
def f2 : Word := 0xc2b2ae35#32

/-- `tail_mix(h, d, t)` (R111); it applies no rotate and no multiply-add to `h` (R112). -/
def tailMix (h d : Word) (t : BitVec 2) : Word :=
  if t = 0#2 then h else h ^^^ kmix (packTail d t)

/-- `fmix32(h)`, the avalanche mix (R114), with the shift amounts 16, 13, 16 of R113. -/
def fmix32 (h : Word) : Word :=
  let h1 := xorShiftRight h 16
  let h2 := h1 * f1
  let h3 := xorShiftRight h2 13
  let h4 := h3 * f2
  xorShiftRight h4 16

/-- `LEN + zext_32(t)`: the length with the tail counted (R115, R116). -/
def finalLen (len : Word) (t : BitVec 2) : Word := len + zext32 t

/-- The digest FINAL leaves, from `H` and `LEN`: the tail, the length XOR, the avalanche mix (R116). -/
def finalDigest (h len : Word) (t : BitVec 2) (d : Word) : Word :=
  fmix32 (tailMix h d t ^^^ finalLen len t)

/-- FINAL (R116): `H` takes the digest, `LEN` counts the tail, `ACTIVE <- 0`, `DONE <- 1`; cause 3 when no session is
open. -/
def execFinal (t : BitVec 2) (d : Word) (s : State) : Host.Outcome State Fault Refusal :=
  completeActive s (((s.writeH (finalDigest s.h s.len t d)).writeLen (finalLen s.len t)).writeSession false true)

end Sys2Proof.Machine
end

