-- ==== Sys2Proof/Machine/Init.lean ====
section
/-! DEFINITION. INIT, the seed load (R80). -/

namespace Sys2Proof.Machine

/-- INIT (R80): `H <- seed`, `LEN <- 0`, `ACTIVE <- 1`, `DONE <- 0`; an open session is abandoned. It needs no session. -/
def execInit (seed : Word) (s : State) : Host.Outcome State Fault Refusal :=
  completeWith (((s.writeH seed).writeLen 0#32).writeSession true false)

end Sys2Proof.Machine
end

