-- ==== Sys2Proof/Machine/Dispatch.lean ====
section
/-! DEFINITION. One arm per command of the opcode table. -/

namespace Sys2Proof.Machine

def exec (i : Instr) (s : State) : Host.Outcome State Fault Refusal :=
  match i with
  | .init seed => Sys2Proof.Machine.execInit seed s
  | .block k => Sys2Proof.Machine.execBlock k s
  | .final t d => Sys2Proof.Machine.execFinal t d s

end Sys2Proof.Machine
end

