-- ==== Sys2Proof/Machine/Complete.lean ====
section
/-! DEFINITION. The completion of the word in flight, one host move and one step of the untimed model (R44, R190), and
where a command is placed for the next step. -/

namespace Sys2Proof.Machine

/-- The completion of an accepted word (R44): a word that does not decode raises its cause (R66, R150, R152), and a
command has its meaning. -/
def completeWord (w : CmdWord) (s : State) : Host.Outcome State Fault Refusal :=
  match decode w with
  | .error e => raiseIllegal (causeOfDecodeError e) s
  | .ok i => exec i s

/-- One host move as one atomic transition (R190). -/
def runMove (m : HostMove) (s : State) : Host.Outcome State Fault Refusal :=
  match m with
  | .present w => completeWord w (s.accept w)
  | .reset => .next s.resetBlock
  | .resetDuring w => .next (s.accept w).resetBlock

/-- The host's next move, at its position in the script (R26). -/
def nextMove (s : State) : Option HostMove := s.program[s.position]?

/-- What the block and the host do in one step. A command already in flight completes (R44; log entry 15). Otherwise the
host makes its next move; when it has none, the block waits, holding its state (R145, R161; log entry 10). -/
def nextEvent (s : State) : Host.Outcome State Fault Refusal :=
  match s.inFlight with
  | some f => completeWord f.word s
  | none =>
    match nextMove s with
    | some m => runMove m s.advance
    | none => .next s

/-- One step stands for one edge or more, so the reset cycle of an earlier reset edge is over (R45; log entry 6). -/
def stepState (s : State) : Host.Outcome State Fault Refusal := nextEvent s.leaveReset

/-- `s` with no command in flight and `w` as the command the host presents next, in the place of the move at its
position. -/
def placeCommand (s : State) (w : CmdWord) : State :=
  { s with
    inFlight := none
    program := s.program.take s.position ++ .present w :: s.program.drop (s.position + 1)
    position := min s.position s.program.length }

end Sys2Proof.Machine
end

