-- ==== Sys2Proof/Machine/Step.lean ====
section
/-! DEFINITION. The step of the untimed model (R190): "each accepted command as one atomic transition". -/

namespace Sys2Proof.Machine

/-- One step of the machine. -/
def step (s : State) : Host.Outcome State Fault Refusal := stepState s

/-- `s` with the table's word `w` as the command that the next step accepts and completes. The block fetches nothing
(R26, R56): the host presents the command, so it stands in the host's script at its position, and no command is in
flight. Log entry 2. -/
def State.withFetchWord (s : State) (nbits w : Nat) : State := placeCommand s (tableWord nbits w)

end Sys2Proof.Machine
end

