-- ==== Sys2Proof/Machine/Assembler.lean ====
section
/-! DEFINITION. The assembler's commands and pseudo-instructions (R69, R70, R141) and the words they stand for. -/

namespace Sys2Proof.Machine

/-- One command as written, its numbers as the programmer wrote them (R69, R70). -/
inductive Asm where
  /-- `INIT <imm32>` -/
  | init (imm : Nat)
  /-- `BLOCK <imm32>` -/
  | block (imm : Nat)
  /-- `FINAL <t>`, or `FINAL <t>, <imm32>` -/
  | final (t : Nat) (imm : Option Nat)
  /-- `.word64 <imm64>`, "the only way to spell an illegal command" -/
  | word64 (imm : Nat)
  /-- `BLOCKB b0, b1, b2, b3` -/
  | blockB (b0 b1 b2 b3 : Nat)
  /-- `FINALB` with no, one, two or three bytes -/
  | finalB (bytes : List Nat)
deriving DecidableEq, Repr

/-- One line: a command, or the whole-buffer pseudo-instruction `HASHBUF seed, addr, L` (R141). -/
inductive AsmLine where
  | cmd (a : Asm)
  | hashBuf (seed addr len : Nat)
deriving DecidableEq, Repr

/-- What an assembler accepts: `imm32 < 2^32`, `t ≤ 3`, bytes `0 to 255`, at most three tail bytes (R69, R70). That it
refuses a `.word64` number of `2^64` or more is the model's choice (log entry 9): R69 gives no bound for `imm64`. -/
def Asm.wellFormed : Asm → Bool
  | .init n => decide (n < 2 ^ 32)
  | .block n => decide (n < 2 ^ 32)
  | .final t imm => decide (t ≤ 3) && decide (imm.getD 0 < 2 ^ 32)
  | .word64 n => decide (n < 2 ^ 64)
  | .blockB b0 b1 b2 b3 => [b0, b1, b2, b3].all (fun b => decide (b ≤ 255))
  | .finalB bs => decide (bs.length ≤ 3) && bs.all (fun b => decide (b ≤ 255))

/-- Byte `i` of a list of written bytes; "everything omitted is 0" (R69). -/
def byteAt (bs : List Nat) (i : Nat) : Byte := BitVec.ofNat 8 (bs.getD i 0)

/-- The word of a written command (R69, R70). -/
def Asm.word : Asm → CmdWord
  | .init n => encode (.init (BitVec.ofNat 32 n))
  | .block n => encode (.block (BitVec.ofNat 32 n))
  | .final t imm => encode (.final (BitVec.ofNat 2 t) (BitVec.ofNat 32 (imm.getD 0)))
  | .word64 n => BitVec.ofNat 64 n
  | .blockB b0 b1 b2 b3 =>
      encode (.block (le32 (BitVec.ofNat 8 b0) (BitVec.ofNat 8 b1) (BitVec.ofNat 8 b2) (BitVec.ofNat 8 b3)))
  | .finalB bs =>
      encode (.final (BitVec.ofNat 2 bs.length) (le32 (byteAt bs 0) (byteAt bs 1) (byteAt bs 2) 0#8))

/-- `MemRead(addr, n)` of the host's input buffer: `n` bytes from byte offset `addr`, in address order (R10). Past the end
of the buffer the spec gives no byte; this list is then shorter than `n`, which is the model's choice (log entry 8). -/
def memRead (buf : List Byte) (addr n : Nat) : List Byte := (buf.drop addr).take n

/-- `BLOCKB` of the four bytes at byte offset `addr`, four single-byte reads at any alignment (R141, R50). -/
def blockAt (buf : List Byte) (addr : Nat) : Asm :=
  .blockB ((memRead buf addr 1).getD 0 0#8).toNat ((memRead buf (addr + 1) 1).getD 0 0#8).toNat
    ((memRead buf (addr + 2) 1).getD 0 0#8).toNat ((memRead buf (addr + 3) 1).getD 0 0#8).toNat

/-- Does the host's buffer hold all `len` bytes at `addr`? No byte is needed where `len` is 0. -/
def bufferHolds (buf : List Byte) (addr len : Nat) : Bool := decide (len ≤ buf.length - addr)

/-- The expansion of `HASHBUF seed, addr, L` (R141). It makes no check itself: where the buffer does not hold the `L`
bytes a missing block byte is 0 and the tail is shorter, which is the model's choice (log entry 8). The assembler and
`chainRun` refuse such a HASHBUF. -/
def expandHashBuf (buf : List Byte) (seed addr len : Nat) : List Asm :=
  .init seed :: ((List.range (len / 4)).map (fun j => blockAt buf (addr + 4 * j))
    ++ [.finalB ((memRead buf (addr + 4 * (len / 4)) (len % 4)).map BitVec.toNat)])

/-- A line is well formed over the host's buffer; `HASHBUF` needs the `L` bytes at `addr` to be there (the
model's choice, log entry 8). -/
def AsmLine.wellFormed (buf : List Byte) : AsmLine → Bool
  | .cmd a => a.wellFormed
  | .hashBuf seed addr len => decide (seed < 2 ^ 32) && bufferHolds buf addr len

/-- The commands a line stands for. -/
def AsmLine.commands (buf : List Byte) : AsmLine → List Asm
  | .cmd a => [a]
  | .hashBuf seed addr len => expandHashBuf buf seed addr len

/-- The assembler: the command words of a line, or nothing for a line it refuses (R69). -/
def assemble (buf : List Byte) (l : AsmLine) : Option (List CmdWord) :=
  if l.wellFormed buf then some ((l.commands buf).map Asm.word) else none

end Sys2Proof.Machine
end

