-- ==== Sys2Proof/Machine/AsmText.lean ====
section
/-! DEFINITION. The textual form of a line (R69, R70, R141), read from its characters. White space, comments, letter case,
the number form of operands other than `imm32` and the form of HASHBUF's `addr` are the model's choice (log entry 9). -/

namespace Sys2Proof.Machine

/-- A blank. -/
def isBlank (c : Char) : Bool := c == ' ' || c == '\t'

/-- The characters without blanks at either end. -/
def trimBlanks (cs : List Char) : List Char := ((cs.dropWhile isBlank).reverse.dropWhile isBlank).reverse

/-- The pieces between separators. -/
def splitAtChar (sep : Char) : List Char → List (List Char)
  | [] => [[]]
  | c :: cs =>
    if c == sep then [] :: splitAtChar sep cs
    else
      match splitAtChar sep cs with
      | [] => [[c]]
      | p :: ps => (c :: p) :: ps

/-- The value of a digit, in hexadecimal or decimal. -/
def digitValue (c : Char) : Option Nat :=
  if 48 ≤ c.toNat ∧ c.toNat ≤ 57 then some (c.toNat - 48)
  else if 65 ≤ c.toNat ∧ c.toNat ≤ 70 then some (c.toNat - 55)
  else if 97 ≤ c.toNat ∧ c.toNat ≤ 102 then some (c.toNat - 87)
  else none

/-- The digits after those that gave `acc`. -/
def digitsFrom (base : Nat) : Nat → List Char → Option Nat
  | acc, [] => some acc
  | acc, c :: cs =>
    match digitValue c with
    | none => none
    | some d => if d < base then digitsFrom base (acc * base + d) cs else none

/-- A nonempty string of digits. -/
def digitString (base : Nat) (cs : List Char) : Option Nat :=
  if cs.isEmpty then none else digitsFrom base 0 cs

/-- "A decimal or `0x`-prefixed hexadecimal number": R69 says so of `imm32`. That `t`, `imm64`, the bytes of BLOCKB and
FINALB and the operands of HASHBUF are read the same way is the model's choice (log entry 9). -/
def readNumber : List Char → Option Nat
  | '0' :: 'x' :: ds => digitString 16 ds
  | ds => digitString 10 ds

/-- The texts of the operands of a line: none, or what stands between the commas. -/
def operandTexts (cs : List Char) : List (List Char) :=
  if (trimBlanks cs).isEmpty then [] else (splitAtChar ',' cs).map trimBlanks

/-- The operands of a line as numbers, in the one number form of `readNumber` (the model's choice but for `imm32`, log
entry 9). -/
def readOperands (cs : List Char) : Option (List Nat) := (operandTexts cs).mapM readNumber

/-- The host's names for byte offsets in its buffer, such as the `buf` of 95_test_vectors.md P2 and P6 (log entry 9). -/
abbrev BufferNames := List (List Char × Nat)

/-- HASHBUF's `addr` operand: a number, or one of the host's names (the model's choice, log entry 9: R141 gives no
syntax). -/
def readAddress (names : BufferNames) (cs : List Char) : Option Nat :=
  match readNumber cs with
  | some n => some n
  | none => names.lookup cs

/-- `HASHBUF seed, addr, L` (R141). -/
def readHashBuf (names : BufferNames) (cs : List Char) : Option AsmLine :=
  match operandTexts cs with
  | [seed, addr, len] =>
    match readNumber seed, readAddress names addr, readNumber len with
    | some s, some a, some l => some (.hashBuf s a l)
    | _, _, _ => none
  | _ => none

/-- The command with mnemonic `m` and operands `ns` (R69, R70). -/
def lineOf (m : List Char) (ns : List Nat) : Option AsmLine :=
  if m = ['I', 'N', 'I', 'T'] then
    match ns with
    | [n] => some (.cmd (.init n))
    | _ => none
  else if m = ['B', 'L', 'O', 'C', 'K'] then
    match ns with
    | [n] => some (.cmd (.block n))
    | _ => none
  else if m = ['F', 'I', 'N', 'A', 'L'] then
    match ns with
    | [t] => some (.cmd (.final t none))
    | [t, n] => some (.cmd (.final t (some n)))
    | _ => none
  else if m = ['.', 'w', 'o', 'r', 'd', '6', '4'] then
    match ns with
    | [n] => some (.cmd (.word64 n))
    | _ => none
  else if m = ['B', 'L', 'O', 'C', 'K', 'B'] then
    match ns with
    | [b0, b1, b2, b3] => some (.cmd (.blockB b0 b1 b2 b3))
    | _ => none
  else if m = ['F', 'I', 'N', 'A', 'L', 'B'] then some (.cmd (.finalB ns))
  else none

/-- One line of text: a mnemonic, blanks, operands; `;` begins a comment. -/
def parseLine (names : BufferNames) (line : List Char) : Option AsmLine :=
  let code := trimBlanks (line.takeWhile (· != ';'))
  let mnemonic := code.takeWhile (fun c => !isBlank c)
  let operands := code.dropWhile (fun c => !isBlank c)
  if mnemonic = ['H', 'A', 'S', 'H', 'B', 'U', 'F'] then readHashBuf names operands
  else
    match readOperands operands with
    | none => none
    | some ns => lineOf mnemonic ns

/-- The command words of one line of text, or nothing for a line the assembler refuses (R69). -/
def assembleText (names : BufferNames) (buf : List Byte) (line : List Char) : Option (List CmdWord) :=
  match parseLine names line with
  | none => none
  | some l => assemble buf l

end Sys2Proof.Machine
end

