-- ==== Sys2Proof/Machine/Clock.lean ====
section
/-! DEFINITION. The clocked block: its ports (R41), the handshake (R42, R43), one rising edge (R44, R181, R189), what the
outputs show (R45), and the host's handshake duty (R186). The untimed step abstracts this (R190). -/

namespace Sys2Proof.Machine

/-- The input ports as sampled at one rising edge of `clk` (R41). -/
structure Pins where
  rst : Bool
  cmdValid : Bool
  cmdWord : CmdWord
deriving DecidableEq, Repr

/-- The output ports as sampled at one rising edge of `clk` (R41). -/
structure Outputs where
  cmdReady : Bool
  hOut : Word
  lenOut : Word
  statusOut : Word
deriving DecidableEq, Repr

/-- `cmd_ready` (R43): `BUSY = 0` and `rst = 0`. -/
def cmdReady (rst : Bool) (s : State) : Bool := !s.busy && !rst

/-- A command is accepted at this edge (R42). -/
def accepted (p : Pins) (s : State) : Bool := !p.rst && p.cmdValid && cmdReady p.rst s

/-- The command in flight one edge on (R189): at its last edge it completes (R44), before that nothing is written. -/
def flightEdge (f : InFlight) (s : State) : Host.Outcome State Fault Refusal :=
  if f.left ≤ 1 then completeWord f.word s
  else .next { s with inFlight := some { f with left := f.left - 1 } }

/-- A rising edge with `rst = 0`: a command in flight goes on whatever the command ports show (R42); a quiescent block
accepts what is presented (R42) or holds its state (R161). -/
def runningEdge (p : Pins) (s : State) : Host.Outcome State Fault Refusal :=
  match s.inFlight with
  | some f => flightEdge f s
  | none => if accepted p s then .next (s.accept p.cmdWord) else .next s

/-- One rising edge of `clk`. Reset wins over everything (R181); any other edge ends the reset cycle (R45). -/
def edge (p : Pins) (s : State) : Host.Outcome State Fault Refusal :=
  if p.rst then .next s.resetBlock else runningEdge p s.leaveReset

/-- A run of rising edges, the block alone. -/
def runEdges : List Pins → State → Host.Outcome State Fault Refusal
  | [], s => .next s
  | p :: ps, s =>
    match edge p s with
    | .next t => runEdges ps t
    | .fault r => .fault r
    | .refused r => .refused r

/-- The pins `q` keep what `p` presented at state `s`: "while `cmd_valid = 1` and `cmd_ready = 0`, the host keeps
`cmd_word` and `cmd_valid` unchanged until acceptance" (R186). -/
def keepsCommand (p q : Pins) (s : State) : Bool :=
  !(p.cmdValid && !cmdReady p.rst s) || (q.cmdValid && q.cmdWord == p.cmdWord)

/-- The host does its handshake duty (R186) all along a run of edges. -/
def hostHoldsCommand : List Pins → State → Bool
  | p :: q :: ps, s =>
    keepsCommand p q s &&
      match edge p s with
      | .next t => hostHoldsCommand (q :: ps) t
      | _ => true
  | _, _ => true

/-- A run of rising edges under a host: "a model does not admit the change" (R186, R146). -/
def runPins (ps : List Pins) (s : State) : Host.Outcome State Fault Refusal :=
  if hostHoldsCommand ps s then runEdges ps s else .refused .commandChanged

/-- `n` unspecified output values are drawn. -/
def State.draw (s : State) (n : Nat) : State := { s with draws := s.draws + n }

/-- The `i`-th unspecified output value drawn at state `s` (R45): a free value. -/
def drawn (s : State) (i : Nat) : Word := Config.freeOut (s.draws + i)

/-- STATUS while `BUSY = 1` (R45): bit 0 is 1, every other bit unspecified. -/
def busyStatus (free : Word) : Word := free ||| 1#32

/-- R45's reset cycle, as a read at a rising edge meets it: the edge has `rst = 1`, or the edge before it was a reset edge,
so that what is sampled here was driven before "the first edge after it" (log entry 6). -/
def inResetCycle (rst : Bool) (s : State) : Bool := rst || s.justReset

/-- What the outputs show at a rising edge (R45), and the state after the read, which is `s` but for the count of draws
(R51; log entry 3): in the reset cycle, unspecified; while `BUSY = 1`, unspecified but for `BUSY`; otherwise the
registers. `cmd_ready` is R43's throughout. -/
def sampleOutputs (rst : Bool) (s : State) : Outputs × State :=
  if inResetCycle rst s then
    (⟨cmdReady rst s, drawn s 0, drawn s 1, drawn s 2⟩, s.draw 3)
  else if s.busy then
    (⟨cmdReady rst s, drawn s 0, drawn s 1, busyStatus (drawn s 2)⟩, s.draw 3)
  else
    (⟨cmdReady rst s, s.h, s.len, statusWord s⟩, s)

end Sys2Proof.Machine
end

