-- ==== Sys2Proof/Machine/Blocks.lean ====
section
/-! DEFINITION. Several blocks (R6: "any" number of instances), which share no state (R58, R159). -/

namespace Sys2Proof.Machine

/-- One rising edge at block number `i` of several, each driven by its own host on its own pins (R58). -/
def edgeAt (i : Nat) (p : Pins) (blocks : List State) : Host.Outcome (List State) Fault Refusal :=
  match blocks[i]? with
  | none => .next blocks
  | some s =>
    match edge p s with
    | .next t => .next (blocks.set i t)
    | .fault r => .fault r
    | .refused r => .refused r

end Sys2Proof.Machine
end

