-- ==== Sys2Proof/Machine/HostProgram.lean ====
section
/-! DEFINITION. The hash contract (R140), runs of host programs (R145, R163), HASHBUF runs (R141, R142), chaining (R144). -/

namespace Sys2Proof.Machine

/-- `data[i]` of R140, read only at indexes below the length. -/
def dataByte (data : List Byte) (i : Nat) : Byte := data.getD i 0#8

/-- The block word number `j` of R140. -/
def blockWord (data : List Byte) (j : Nat) : Word :=
  le32 (dataByte data (4 * j)) (dataByte data (4 * j + 1)) (dataByte data (4 * j + 2)) (dataByte data (4 * j + 3))

/-- The tail word `d` of R140, for `t = L mod 4` bytes from index `4n`. -/
def tailWord (data : List Byte) : Word :=
  let n := data.length / 4
  let t := data.length % 4
  if t ≠ 0 then
    le32 (dataByte data (4 * n)) (if t > 1 then dataByte data (4 * n + 1) else 0#8)
      (if t > 2 then dataByte data (4 * n + 2) else 0#8) 0#8
  else 0#32

/-- `murmur3_32(seed, data)`, the normative digest (R140). -/
def murmur3 (seed : Word) (data : List Byte) : Word :=
  let h := (List.range (data.length / 4)).foldl (fun h j => blockMix h (blockWord data j)) seed
  let h := tailMix h (tailWord data) (BitVec.ofNat 2 (data.length % 4))
  fmix32 (h ^^^ trunc32 data.length)

/-- The host takes up the program `ws` from its first command (R145). -/
def loadProgram (ws : List CmdWord) (s : State) : State :=
  { s with program := ws.map HostMove.present, position := 0 }

/-- The cause for which the host's next command will be illegal, if it will. -/
def pendingCause (s : State) : Option Cause :=
  match nextMove s with
  | some (.present w) => illegalCause w s
  | _ => none

/-- `k` commands of a host program; the completion of an illegal one is "a fault of that run" (R163). -/
def runProgram : Nat → State → Host.Outcome State Fault Refusal
  | 0, s => .next s
  | k + 1, s =>
    match pendingCause s with
    | some c => .fault (.illegalCommand c)
    | none =>
      match step s with
      | .next t => runProgram k t
      | .fault r => .fault r
      | .refused r => .refused r

/-- The run of the host program `ws` from a state with `BUSY = 0` (R145). -/
def hostRun (ws : List CmdWord) (s : State) : Host.Outcome State Fault Refusal :=
  runProgram ws.length (loadProgram ws s)

/-- The observation at the end of a run, `(H, LEN, STATUS)` (R145). -/
def observation (s : State) : Word × Word × Word := (s.h, s.len, statusWord s)

/-- The pins by which a host drives the program `ws` into a quiescent block at `s` with no delay of its own: each command
is presented for one edge and its latency is waited out (R42, R44, R189). -/
def clockedPins : List CmdWord → State → List Pins
  | [], _ => []
  | w :: ws, s =>
    ⟨false, true, w⟩ :: (List.replicate (latencyOf w s) ⟨false, false, 0#64⟩ ++
      match completeWord w s with
      | .next t => clockedPins ws t
      | _ => [])

/-- The command words of `HASHBUF seed, addr, L` over the host's buffer (R141). No check is made here: where the buffer
does not hold the `L` bytes, missing block bytes are 0 and the tail is shorter (the model's choice, log entry 8). -/
def hashBufWords (buf : List Byte) (seed : Word) (addr len : Nat) : List CmdWord :=
  (expandHashBuf buf seed.toNat addr len).map Asm.word

/-- The chained runs of R144: hash the buffer, read `h_out` once `BUSY = 0`, and hash again with it as the seed. The
answer is the last digest read and the state. A round over bytes the buffer does not hold is refused (the model's
choice, log entry 8). -/
def chainRun (buf : List Byte) (addr len : Nat) : Nat → Word → State → Host.Outcome (Word × State) Fault Refusal
  | 0, seed, s => .next (seed, s)
  | k + 1, seed, s =>
    if bufferHolds buf addr len then
      match hostRun (hashBufWords buf seed addr len) s with
      | .next t => chainRun buf addr len k (sampleOutputs false t).1.hOut (sampleOutputs false t).2
      | .fault r => .fault r
      | .refused r => .refused r
    else .refused .outsideBuffer

end Sys2Proof.Machine
end

