-- ==== Sys2Proof/Safety.lean ====
section
/-! DEFINITION. What counts as a sound state and a good run, in the terms the statements use. -/

namespace Sys2Proof.Machine

/-- R20's registers and flags but `BUSY`: `H`, `LEN`, `ACTIVE`, `DONE`, `ERR`, `ECAUSE`. -/
def State.registers (s : State) : Word × Word × Bool × Bool × Bool × BitVec 2 :=
  (s.h, s.len, s.active, s.done, s.err, s.ecause)

/-- The invariants of the flags, "which every reachable state keeps" (R28). -/
abbrev State.FlagsInv (s : State) : Prop :=
  ¬(s.active = true ∧ s.done = true) ∧
  (s.active = true → s.len.toNat % 4 = 0) ∧
  (s.err = false → s.ecause = 0b00#2) ∧
  (s.err = true → s.ecause = 1#2 ∨ s.ecause = 2#2 ∨ s.ecause = 3#2)

/-- A command in flight completes within 1 to `LAT_MAX` edges from now (R44, R189). -/
def State.FlightInv (s : State) : Prop :=
  ∀ f, s.inFlight = some f → 1 ≤ f.left ∧ f.left ≤ Config.latMax

/-- A state is faulted when an illegal command has completed since reset: the block's own sticky record (R24, R163). -/
abbrev State.Faulted (s : State) : Prop := s.err = true

/-- The states reached from reset by rising edges with any pins (R28's "every reachable state"). -/
inductive Reachable : State → Prop where
  | reset : Reachable State.reset
  | edge {s t : State} (p : Pins) (hs : Reachable s) (h : edge p s = .next t) : Reachable t

end Sys2Proof.Machine
end

