-- ==== Sys2Proof/Certificates/Slice0/Obligations.lean ====
section
/-! DEFINITION. The statements for the provers. Each docstring names the rule of the spec it formalises. -/

open Sys2Proof Sys2Proof.Machine

/-! ## Encoding -/

/-- Words written out from R60's format and R61's opcodes decode to the commands they stand for, and reserved words to
their causes. -/
def Obligations.DecodeReadsWrittenWords : Prop :=
  decode 0x0000232900000001#64 = .ok (.init 0x00002329#32) ∧
  decode 0x7473657400000002#64 = .ok (.block 0x74736574#32) ∧
  decode 0x0000002100000013#64 = .ok (.final 1#2 0x00000021#32) ∧
  decode 0xFFFFFFFF00000033#64 = .ok (.final 3#2 0xFFFFFFFF#32) ∧
  decode 0x0000000000000000#64 = .error .reservedOpcode ∧
  decode 0x0000000000000045#64 = .error .reservedOpcode ∧
  decode 0x0000000080000001#64 = .error .reservedField ∧
  decode 0x0000000000000012#64 = .error .reservedField ∧
  decode 0x00000000000000F3#64 = .error .reservedField

/-- Decoding an encoded command gives it back, for every command and every operand. -/
def Obligations.DecodeOfEncode : Prop := ∀ i : Instr, decode (encode i) = .ok i

/-- Every command has one word: encoding what a word decodes to gives the word back. -/
def Obligations.EncodeOfDecode : Prop := ∀ (w : CmdWord) (i : Instr), decode w = .ok i → encode i = w

/-- R62: the decoder agrees with the match and mask table, a word that matches no row is illegal, and no two rows match
one word. -/
def Obligations.DecodeAgreesWithMatchMaskTable : Prop :=
  (∀ w : CmdWord,
    (w &&& 0x00000000FFFFFFFF#64 = 0x0000000000000001#64 ↔ ∃ seed, decode w = .ok (.init seed)) ∧
    (w &&& 0x00000000FFFFFFFF#64 = 0x0000000000000002#64 ↔ ∃ k, decode w = .ok (.block k)) ∧
    (w &&& 0x00000000FFFFFFCF#64 = 0x0000000000000003#64 ↔ ∃ t d, decode w = .ok (.final t d)) ∧
    (wordWellFormed w = false ↔ ∃ e, decode w = .error e)) ∧
  (∀ (w : CmdWord) (r q : CommandRow), r ∈ commandRows → q ∈ commandRows → r.holds w = true → q.holds w = true → r = q)

/-- R66: the decode function, its checks in order, with the fields taken from the word by arithmetic. -/
def Obligations.DecodeChecksInOrder : Prop :=
  ∀ w : CmdWord,
    let op := w.toNat % 16
    let tlen := w.toNat / 16 % 4
    let rsvd := w.toNat / 64 % 2 ^ 26
    let data := w.toNat / 2 ^ 32
    (op ≠ 1 ∧ op ≠ 2 ∧ op ≠ 3 → decode w = .error .reservedOpcode) ∧
    ((op = 1 ∨ op = 2 ∨ op = 3) ∧ rsvd ≠ 0 → decode w = .error .reservedField) ∧
    ((op = 1 ∨ op = 2) ∧ rsvd = 0 ∧ tlen ≠ 0 → decode w = .error .reservedField) ∧
    (op = 1 ∧ rsvd = 0 ∧ tlen = 0 → decode w = .ok (.init (BitVec.ofNat 32 data))) ∧
    (op = 2 ∧ rsvd = 0 ∧ tlen = 0 → decode w = .ok (.block (BitVec.ofNat 32 data))) ∧
    (op = 3 ∧ rsvd = 0 → decode w = .ok (.final (BitVec.ofNat 2 tlen) (BitVec.ofNat 32 data)))

/-- R63: INIT and BLOCK use `DATA` whole, and FINAL only its low `8*TLEN` bits: what lies above has no effect. -/
def Obligations.DataFieldUse : Prop :=
  (∀ (w : CmdWord) (seed : Word), decode w = .ok (.init seed) → seed.toNat = w.toNat / 2 ^ 32) ∧
  (∀ (w : CmdWord) (k : Word), decode w = .ok (.block k) → k.toNat = w.toNat / 2 ^ 32) ∧
  (∀ (w : CmdWord) (t : BitVec 2) (d : Word), decode w = .ok (.final t d) → d.toNat = w.toNat / 2 ^ 32) ∧
  (∀ (seed k : Word) (s t : State), (exec (.init seed) s = .next t → t.h = seed) ∧
    (s.active = true → exec (.block k) s = .next t → t.h = blockMix s.h k)) ∧
  (∀ (t : BitVec 2) (d d' : Word) (s : State), d.toNat % 2 ^ (8 * t.toNat) = d'.toNat % 2 ^ (8 * t.toNat) →
    exec (.final t d) s = exec (.final t d') s)

/-- R46: `DATA[7:0]` of a BLOCK is byte 0, and the block word is `le32` of the four bytes. -/
def Obligations.BlockByteOrder : Prop :=
  ∀ (w : CmdWord) (k : Word), decode w = .ok (.block k) →
    k = le32 (w.extractLsb' 32 8) (w.extractLsb' 40 8) (w.extractLsb' 48 8) (w.extractLsb' 56 8) ∧
    ∀ b0 b1 b2 b3 : Byte,
      (le32 b0 b1 b2 b3).toNat = b0.toNat + 2 ^ 8 * b1.toNat + 2 ^ 16 * b2.toNat + 2 ^ 24 * b3.toNat

/-- R47: for FINAL with `TLEN = t`, tail byte `i < t` sits in `DATA[8i+7:8i]`, the place a full block gives it. -/
def Obligations.TailByteOrder : Prop :=
  ∀ (w : CmdWord) (t : BitVec 2) (d : Word) (i : Nat), decode w = .ok (.final t d) → i < t.toNat →
    byteOf d i = w.extractLsb' (32 + 8 * i) 8 ∧ byteOf (packTail d t) i = byteOf d i

/-! ## The datapath -/

/-- R92: `kmix` as arithmetic modulo `2^32`, with the rotate written out, `kmix(0) = 0`, and `kmix` is a bijection; the
block_processor and the tail_processor use this same function. -/
def Obligations.KmixArithmetic : Prop :=
  (∀ k : Word,
    let k1 := k.toNat * 0xcc9e2d51 % 2 ^ 32
    let k2 := k1 * 2 ^ 15 % 2 ^ 32 + k1 / 2 ^ 17
    (kmix k).toNat = k2 * 0x1b873593 % 2 ^ 32) ∧
  kmix 0#32 = 0#32 ∧ Function.Bijective kmix ∧
  (∀ h k : Word, blockMix h k = (h ^^^ kmix k).rotateLeft 13 * 5#32 + 0xe6546b64#32) ∧
  (∀ (h d : Word) (t : BitVec 2), t ≠ 0#2 → tailMix h d t = h ^^^ kmix (packTail d t))

/-- R93: `block_mix` as arithmetic modulo `2^32`, with the rotate written out. -/
def Obligations.BlockMixArithmetic : Prop :=
  ∀ h k : Word,
    let h1 := (h ^^^ kmix k).toNat
    let h2 := h1 * 2 ^ 13 % 2 ^ 32 + h1 / 2 ^ 19
    (blockMix h k).toNat = (h2 * 5 + 0xe6546b64) % 2 ^ 32

/-- R110: byte `i` of the packed tail is byte `i` of `DATA` for `i < t`, and 0 above: no bit of `DATA` above byte `t-1`
reaches it. -/
def Obligations.PackTailBytes : Prop :=
  ∀ (d : Word) (t : BitVec 2) (i : Nat), i < 4 →
    byteOf (packTail d t) i = if i < t.toNat then byteOf d i else 0#8

/-- R111 and R112: an empty tail leaves the accumulator; another is mixed by `kmix` alone, and the block round is that
same mix followed by the rotate and the multiply-add that the tail leaves out. -/
def Obligations.TailMixIsBlockMixWithoutRound : Prop :=
  ∀ (h d : Word) (t : BitVec 2),
    (t = 0#2 → tailMix h d t = h) ∧
    (t ≠ 0#2 → tailMix h d t = h ^^^ kmix (packTail d t) ∧
      blockMix h (packTail d t) = (tailMix h d t).rotateLeft 13 * 5#32 + 0xe6546b64#32)

/-- R114: `fmix32` as arithmetic modulo `2^32`, `fmix32(0) = 0`, and `fmix32` is a bijection. -/
def Obligations.Fmix32Arithmetic : Prop :=
  (∀ h : Word,
    let h1 := h.toNat ^^^ h.toNat / 2 ^ 16
    let h2 := h1 * 0x85ebca6b % 2 ^ 32
    let h3 := h2 ^^^ h2 / 2 ^ 13
    let h4 := h3 * 0xc2b2ae35 % 2 ^ 32
    (fmix32 h).toNat = h4 ^^^ h4 / 2 ^ 16) ∧
  fmix32 0#32 = 0#32 ∧ Function.Bijective fmix32

/-! ## The commands: results, completion and frame -/

/-- INIT answers a next state at every state and seed, and that state is R80's: nothing else changes but `BUSY`, which
falls. -/
def Obligations.InitResult : Prop :=
  ∀ (seed : Word) (s : State),
    exec (.init seed) s =
      .next { s with h := seed, len := 0#32, active := true, done := false, inFlight := none }

/-- BLOCK answers a next state whenever a session is open, and that state is R95's. -/
def Obligations.BlockResult : Prop :=
  ∀ (k : Word) (s : State), s.active = true →
    exec (.block k) s = .next { s with h := blockMix s.h k, len := s.len + 4#32, inFlight := none }

/-- FINAL answers a next state whenever a session is open, and that state is R116's. -/
def Obligations.FinalResult : Prop :=
  ∀ (t : BitVec 2) (d : Word) (s : State), s.active = true →
    exec (.final t d) s =
      .next { s with
        h := fmix32 (tailMix s.h d t ^^^ (s.len + t.setWidth 32))
        len := s.len + t.setWidth 32
        active := false
        done := true
        inFlight := none }

/-- BLOCK and FINAL with no session open raise cause 3: only the error is recorded (R150, R152). -/
def Obligations.NotActiveRaisesCauseThree : Prop :=
  ∀ (k : Word) (t : BitVec 2) (d : Word) (s : State), s.active = false →
    let after := { s with err := true, ecause := if s.err then s.ecause else 3#2, inFlight := none }
    exec (.block k) s = .next after ∧ exec (.final t d) s = .next after

/-- The frame of every command: `BUSY` falls (R44), and what is no register of the block never changes: the host's script and
position and the model's own draw count (the model's reading: log entry 17, with entry 3 for the draw count), and the
reset cycle's mark, which edges and steps change, not commands (log entry 6). A command whose own effect runs leaves `ERR` and `ECAUSE`; one that raises leaves `H`, `LEN`, `ACTIVE` and `DONE`. BLOCK
leaves `ACTIVE` and `DONE`. -/
def Obligations.CommandFrame : Prop :=
  ∀ (i : Instr) (s t : State), exec i s = .next t →
    (t.program = s.program ∧ t.position = s.position ∧ t.draws = s.draws ∧ t.justReset = s.justReset ∧
      t.busy = false) ∧
    (needsSession i = false ∨ s.active = true → t.err = s.err ∧ t.ecause = s.ecause) ∧
    (needsSession i = true ∧ s.active = false →
      t.h = s.h ∧ t.len = s.len ∧ t.active = s.active ∧ t.done = s.done) ∧
    (∀ k, i = .block k → t.active = s.active ∧ t.done = s.done)

/-- R52: INIT repeated leaves the same state; BLOCK repeated mixes its word twice; FINAL repeated is illegal. -/
def Obligations.RepeatedCommands : Prop :=
  (∀ (seed : Word) (s t : State), exec (.init seed) s = .next t → exec (.init seed) t = .next t) ∧
  (∀ (k : Word) (s t u : State), s.active = true → exec (.block k) s = .next t → exec (.block k) t = .next u →
    u.h = blockMix (blockMix s.h k) k ∧ u.len = s.len + 8#32) ∧
  (∀ (n m : BitVec 2) (d e : Word) (s t u : State), s.active = true → exec (.final n d) s = .next t →
    exec (.final m e) t = .next u →
    u.h = t.h ∧ u.len = t.len ∧ u.active = false ∧ u.done = true ∧ u.err = true ∧
      u.ecause = if s.err then s.ecause else 3#2)

/-- The empty input (R116, corner case): INIT then `FINAL 0` leaves `fmix32` of the seed, whatever `DATA` holds. -/
def Obligations.EmptyInputDigest : Prop :=
  ∀ (seed d : Word) (s t u : State), exec (.init seed) s = .next t → exec (.final 0#2 d) t = .next u →
    u.h = fmix32 seed ∧ u.len = 0#32 ∧ u.active = false ∧ u.done = true

/-! ## Who writes what, over one clock edge -/

/-- R21: `H` after an edge, whatever the pins: INIT sets the seed, BLOCK the block mix, FINAL the digest, reset zero, and
nothing else writes it; and the host sees it on `h_out` outside the reset cycle (log entry 6). -/
def Obligations.WritersOfH : Prop :=
  (∀ (p : Pins) (s t : State), edge p s = .next t →
    (p.rst = true → t.h = 0#32) ∧
    (∀ f, p.rst = false → s.inFlight = some f → f.left ≤ 1 →
      (∀ seed, decode f.word = .ok (.init seed) → t.h = seed) ∧
      (∀ k, decode f.word = .ok (.block k) → t.h = if s.active then blockMix s.h k else s.h) ∧
      (∀ n d, decode f.word = .ok (.final n d) →
        t.h = if s.active then fmix32 (tailMix s.h d n ^^^ (s.len + n.setWidth 32)) else s.h) ∧
      (∀ e, decode f.word = .error e → t.h = s.h)) ∧
    (p.rst = false → (∀ f, s.inFlight = some f → 1 < f.left) → t.h = s.h)) ∧
  State.reset.h = 0#32 ∧
  (∀ s : State, s.busy = false → s.justReset = false → (sampleOutputs false s).1.hOut = s.h)

/-- R22: `LEN` after an edge: INIT sets 0, BLOCK adds 4, FINAL adds `TLEN`, both modulo `2^32`, reset zero, and nothing
else writes it; and the host sees it on `len_out` outside the reset cycle (log entry 6). -/
def Obligations.WritersOfLen : Prop :=
  (∀ (p : Pins) (s t : State), edge p s = .next t →
    (p.rst = true → t.len = 0#32) ∧
    (∀ f, p.rst = false → s.inFlight = some f → f.left ≤ 1 →
      (∀ seed, decode f.word = .ok (.init seed) → t.len = 0#32) ∧
      (∀ k, decode f.word = .ok (.block k) →
        t.len.toNat = if s.active then (s.len.toNat + 4) % 2 ^ 32 else s.len.toNat) ∧
      (∀ n d, decode f.word = .ok (.final n d) →
        t.len.toNat = if s.active then (s.len.toNat + n.toNat) % 2 ^ 32 else s.len.toNat) ∧
      (∀ e, decode f.word = .error e → t.len = s.len)) ∧
    (p.rst = false → (∀ f, s.inFlight = some f → 1 < f.left) → t.len = s.len)) ∧
  State.reset.len = 0#32 ∧
  (∀ s : State, s.busy = false → s.justReset = false → (sampleOutputs false s).1.lenOut = s.len)

/-- R24: each session and error flag with its writers, over one edge. `ERR` is sticky: reset alone clears it; `ECAUSE`
is written only when an illegal command completes while `ERR = 0`. -/
def Obligations.WritersOfFlags : Prop :=
  ∀ (p : Pins) (s t : State), edge p s = .next t →
    (p.rst = true → t.active = false ∧ t.done = false ∧ t.err = false ∧ t.ecause = 0b00#2) ∧
    (∀ f, p.rst = false → s.inFlight = some f → f.left ≤ 1 →
      (∀ seed, decode f.word = .ok (.init seed) →
        t.active = true ∧ t.done = false ∧ t.err = s.err ∧ t.ecause = s.ecause) ∧
      (∀ k, decode f.word = .ok (.block k) → s.active = true →
        t.active = true ∧ t.done = s.done ∧ t.err = s.err ∧ t.ecause = s.ecause) ∧
      (∀ n d, decode f.word = .ok (.final n d) → s.active = true →
        t.active = false ∧ t.done = true ∧ t.err = s.err ∧ t.ecause = s.ecause) ∧
      (∀ i, decode f.word = .ok i → s.active = false → (∃ k, i = .block k) ∨ (∃ n d, i = .final n d) →
        illegalCause f.word s = some .notActive) ∧
      (∀ c, illegalCause f.word s = some c →
        t.active = s.active ∧ t.done = s.done ∧ t.err = true ∧
          t.ecause = if s.err then s.ecause else c.code)) ∧
    (p.rst = false → (∀ f, s.inFlight = some f → 1 < f.left) →
      t.active = s.active ∧ t.done = s.done ∧ t.err = s.err ∧ t.ecause = s.ecause)

/-- R23: the STATUS word, field by field: `BUSY`, `ACTIVE`, `DONE`, `ERR` at bits 0 to 3, `ECAUSE` at 5:4, 0 above. -/
def Obligations.StatusWordLayout : Prop :=
  ∀ s : State,
    (statusWord s).toNat =
      s.busy.toNat + 2 * s.active.toNat + 4 * s.done.toNat + 8 * s.err.toNat + 16 * s.ecause.toNat

/-! ## The handshake, completion and the outputs -/

/-- R43: `cmd_ready = 1` exactly when `BUSY = 0` and `rst = 0`; so nothing is accepted while a command is in flight. -/
def Obligations.ReadyExactlyWhenQuiescent : Prop :=
  (∀ (rst : Bool) (s : State), cmdReady rst s = true ↔ s.busy = false ∧ rst = false) ∧
  (∀ (p : Pins) (s : State), s.busy = true → accepted p s = false)

/-- R42: a command is accepted exactly when `rst = 0`, `cmd_valid = 1` and `cmd_ready = 1`; the block then holds the
sampled word and has changed no register or flag but `BUSY`; while a command is in flight the command ports have no
effect. (What an edge does beside the registers is `EdgeFrame`.) -/
def Obligations.AcceptanceSamplesTheWord : Prop :=
  ∀ (p : Pins) (s t : State), edge p s = .next t →
    (accepted p s = true ↔ p.rst = false ∧ p.cmdValid = true ∧ cmdReady p.rst s = true) ∧
    (accepted p s = true → t.registers = s.registers ∧ ∃ n, t.inFlight = some ⟨p.cmdWord, n⟩) ∧
    (accepted p s = false → p.rst = false → s.busy = false → t.registers = s.registers ∧ t.inFlight = none) ∧
    (s.busy = true → ∀ q : Pins, q.rst = p.rst → edge q s = .next t)

/-- R44: an accepted command completes exactly once, `n` edges on with `1 ≤ n ≤ LAT_MAX`, whatever the command ports
show; before that it writes nothing; at that edge all its writes take effect and `BUSY` is 0; and a reset at any edge
up to that one abandons it. (The accepting edge clears the reset cycle's mark, log entry 6; what edges do beside the
registers is `EdgeFrame`.) -/
def Obligations.CommandCompletesAtomically : Prop :=
  ∀ (p : Pins) (s : State), accepted p s = true →
    ∃ (n : Nat) (t : State), 1 ≤ n ∧ n ≤ Config.latMax ∧
      completeWord p.cmdWord { s with justReset := false } = .next t ∧ t.busy = false ∧
      ∀ qs : List Pins, (∀ q ∈ qs, q.rst = false) →
        (qs.length < n →
          (∃ u, runEdges (p :: qs) s = .next u ∧ u.registers = s.registers ∧
            u.inFlight = some ⟨p.cmdWord, n - qs.length⟩) ∧
          ∀ r : Pins, r.rst = true → ∃ u, runEdges (p :: qs ++ [r]) s = .next u ∧
            u.registers = State.reset.registers ∧ u.inFlight = none) ∧
        (qs.length = n → runEdges (p :: qs) s = .next t)

/-- R190: the clocked block refines the untimed step: presenting the host's next command to a quiescent block and
waiting out its latency gives the state the step answers. -/
def Obligations.ClockedCommandRefinesStep : Prop :=
  ∀ (s : State) (w : CmdWord) (qs : List Pins), s.busy = false → nextMove s = some (.present w) →
    (∀ q ∈ qs, q.rst = false) → qs.length = latencyOf w s →
    ∃ t, step s = .next t ∧ runEdges (⟨false, true, w⟩ :: qs) s.advance = .next t

/-- R181: a reset edge gives every register and flag its reset value, abandons a command in flight and accepts nothing;
reset wins over a completion at the same edge; and reset is the only thing that clears `ERR`. (What an edge does
beside the registers is `EdgeFrame`.) -/
def Obligations.ResetEdge : Prop :=
  (∀ (p : Pins) (s : State), p.rst = true →
    (∃ t, edge p s = .next t ∧ t.h = 0x00000000#32 ∧ t.len = 0x00000000#32 ∧ t.busy = false ∧ t.inFlight = none ∧
      t.active = false ∧ t.done = false ∧ t.err = false ∧ t.ecause = 0b00#2) ∧
    accepted p s = false) ∧
  (∀ (p : Pins) (s t : State), edge p s = .next t → s.err = true → t.err = false → p.rst = true)

/-- R182: at the first edge with `rst = 0` after a reset edge, `cmd_ready = 1` and a command presented is accepted (this edge
also ends the reset cycle of R45, log entry 6). -/
def Obligations.FirstEdgeAfterReset : Prop :=
  ∀ (p q : Pins) (s t : State), p.rst = true → edge p s = .next t → q.rst = false → q.cmdValid = true →
    cmdReady q.rst t = true ∧ accepted q t = true ∧ t.active = false ∧
    ∃ n, edge q t = .next { t with inFlight := some ⟨q.cmdWord, n⟩, justReset := false }

/-- R161: an idle block holds its state while `rst = 0` and nothing is presented, for any number of edges; the mark of the
reset cycle, no register of R20, is gone from the first of them on (log entry 6). -/
def Obligations.IdleBlockHoldsItsState : Prop :=
  ∀ (ps : List Pins) (s : State), s.busy = false → (∀ p ∈ ps, p.rst = false ∧ p.cmdValid = false) →
    runEdges ps s = .next { s with justReset := s.justReset && ps.isEmpty }

/-- R45: while `BUSY = 0` the outputs show `H`, `LEN` and STATUS; while `BUSY = 1` bit 0 of STATUS is 1 and every other
bit is a fresh free value; in the reset cycle, which is at an edge with `rst = 1` and at the first edge after one, the
three outputs are free, and `cmd_ready` is R43's. That the free values are `Config.freeOut` at the model's own draw count
and that a read of them advances it by 3 is the model's choice (log entry 3); the edges of the reset cycle are the
model's reading (log entry 6). -/
def Obligations.OutputsShow : Prop :=
  ∀ s : State,
    (s.busy = false → s.justReset = false → sampleOutputs false s = (⟨true, s.h, s.len, statusWord s⟩, s)) ∧
    (s.busy = true → s.justReset = false →
      (sampleOutputs false s).1.cmdReady = false ∧
      (sampleOutputs false s).1.hOut = Config.freeOut s.draws ∧
      (sampleOutputs false s).1.lenOut = Config.freeOut (s.draws + 1) ∧
      (sampleOutputs false s).1.statusOut.getLsbD 0 = true ∧
      (∀ i, 0 < i → (sampleOutputs false s).1.statusOut.getLsbD i = (Config.freeOut (s.draws + 2)).getLsbD i) ∧
      (sampleOutputs false s).2.draws = s.draws + 3) ∧
    (∀ rst : Bool, rst = true ∨ s.justReset = true →
      sampleOutputs rst s =
        (⟨!s.busy && !rst, Config.freeOut s.draws, Config.freeOut (s.draws + 1), Config.freeOut (s.draws + 2)⟩,
          { s with draws := s.draws + 3 }))

/-- R51: reading the outputs changes no state the spec gives the machine, and neither an edge, nor a step, nor a defined
output depends on the reads made. Exempted is the draw count, the model's own field (log entry 3): a read of unspecified
outputs advances it, and it chooses the free values that later unspecified reads show. -/
def Obligations.ReadsHaveNoSideEffect : Prop :=
  (∀ (rst : Bool) (s : State), { (sampleOutputs rst s).2 with draws := s.draws } = s) ∧
  (∀ (p : Pins) (s t : State) (n : Nat),
    edge p s = .next t → edge p { s with draws := n } = .next { t with draws := n }) ∧
  (∀ (s t : State) (n : Nat), step s = .next t → step { s with draws := n } = .next { t with draws := n }) ∧
  (∀ (s : State) (n : Nat), s.busy = false → s.justReset = false →
    (sampleOutputs false { s with draws := n }).1 = (sampleOutputs false s).1)

/-- R189: the latency is the command's own, never depends on `DATA`, `TLEN`, `H` or `LEN`, and is in `1..LAT_MAX`. That
a BLOCK or FINAL with no session open takes `LAT_ILLEGAL` is the model's reading of R152 (log entry 4). -/
def Obligations.LatencyByCommand : Prop :=
  ∀ (s : State) (w : CmdWord),
    (1 ≤ latencyOf w s ∧ latencyOf w s ≤ Config.latMax) ∧
    (∀ seed, decode w = .ok (.init seed) → latencyOf w s = Config.latInit) ∧
    (∀ k, decode w = .ok (.block k) → s.active = true → latencyOf w s = Config.latBlock) ∧
    (∀ n d, decode w = .ok (.final n d) → s.active = true → latencyOf w s = Config.latFinal) ∧
    (∀ c, illegalCause w s = some c → latencyOf w s = Config.latIllegal)

/-! ## The exception -/

/-- R150: the cause of an illegal command, by its condition (in R151's order of priority), with the `ECAUSE` code that is
recorded when it is the first since reset. Nothing else is recorded: an illegal command changes `ERR`, `ECAUSE` and `BUSY`
alone, and a legal one leaves `ECAUSE`. After reset the field is `0b00`. -/
def Obligations.IllegalCauseTable : Prop :=
  (∀ (w : CmdWord) (s : State),
    let op := w.toNat % 16
    let tlen := w.toNat / 16 % 4
    let rsvd := w.toNat / 64 % 2 ^ 26
    let known := op = 1 ∨ op = 2 ∨ op = 3
    let fieldSet := rsvd ≠ 0 ∨ (tlen ≠ 0 ∧ (op = 1 ∨ op = 2))
    (illegalCause w s = some .reservedOpcode ↔ ¬ known) ∧
    (illegalCause w s = some .reservedField ↔ known ∧ fieldSet) ∧
    (illegalCause w s = some .notActive ↔ known ∧ ¬ fieldSet ∧ op ≠ 1 ∧ s.active = false) ∧
    ∃ t, completeWord w s = .next t ∧
      (∀ c, illegalCause w s = some c →
        t.registers = (s.h, s.len, s.active, s.done, true, if s.err then s.ecause else c.code) ∧ t.inFlight = none) ∧
      (illegalCause w s = none → t.ecause = s.ecause)) ∧
  State.reset.ecause = 0b00#2 ∧
  Cause.reservedOpcode.code = 0b01#2 ∧ Cause.reservedField.code = 0b10#2 ∧ Cause.notActive.code = 0b11#2

/-- R152: the whole effect of an illegal command when it completes; a command that is not illegal records no error. -/
def Obligations.IllegalCommandRecordsOnly : Prop :=
  ∀ (w : CmdWord) (s : State),
    (∀ c, illegalCause w s = some c →
      completeWord w s =
        .next { s with err := true, ecause := if s.err then s.ecause else c.code, inFlight := none }) ∧
    (illegalCause w s = none → ∃ t, completeWord w s = .next t ∧ t.err = s.err ∧ t.ecause = s.ecause)

/-- R152: an error does not stop the block: a legal command does the same whatever `ERR` and `ECAUSE` hold. -/
def Obligations.CommandsRunNormallyAfterError : Prop :=
  ∀ (w : CmdWord) (s t : State) (e : Bool) (c : BitVec 2), illegalCause w s = none → completeWord w s = .next t →
    illegalCause w { s with err := e, ecause := c } = none ∧
    completeWord w { s with err := e, ecause := c } = .next { t with err := e, ecause := c }

/-! ## The step -/

/-- When no command is in flight and the word the host presents decodes to `i`, the step is `exec i` at the state where
the host has moved on, the word has been accepted and the reset cycle is over (log entry 6). -/
def Obligations.StepRunsDecodedCommand : Prop :=
  ∀ (s : State) (w : CmdWord) (i : Instr), s.inFlight = none → s.program[s.position]? = some (.present w) →
    decode w = .ok i →
    step s =
      exec i { s with position := s.position + 1, inFlight := some ⟨w, latencyOf w s⟩, justReset := false }

/-- A word that does not decode takes the exception with its cause when the host presents it (and the reset cycle is over,
log entry 6). -/
def Obligations.StepTakesExceptionOnReservedWord : Prop :=
  ∀ (s : State) (w : CmdWord) (e : DecodeError), s.inFlight = none → s.program[s.position]? = some (.present w) →
    decode w = .error e →
    step s = .next { s with
      position := s.position + 1
      err := true
      ecause := if s.err then s.ecause else (match e with | .reservedOpcode => 1#2 | .reservedField => 2#2)
      justReset := false }

/-- The other moves: a reset between commands or instead of a completion leaves R181's state; a command already in
flight completes; with nothing to present the block waits (R145, R161). A reset move begins the reset cycle and any other
step ends it (log entry 6). -/
def Obligations.StepOtherMoves : Prop :=
  ∀ s : State,
    (∀ f, s.inFlight = some f → step s = completeWord f.word { s with justReset := false }) ∧
    (∀ w, s.inFlight = none →
      s.program[s.position]? = some .reset ∨ s.program[s.position]? = some (.resetDuring w) →
      step s = .next { s with
        position := s.position + 1
        h := 0#32, len := 0#32, active := false, done := false, err := false, ecause := 0#2, justReset := true }) ∧
    (s.inFlight = none → s.program[s.position]? = none → step s = .next { s with justReset := false })

/-- The block never stops: from every state the step, and every clock edge, answers a next state. That a step with no host
move left waits (93_implementation_defined.md row 14 calls it stuck) is the model's choice, log entry 10; that a step with
a command in flight completes it is log entry 15; that an illegal command is a next state is log entry 7. -/
def Obligations.BlockNeverStops : Prop :=
  ∀ s : State, (∃ t, step s = .next t) ∧ ∀ p : Pins, ∃ t, edge p s = .next t

/-- Placing a command for the next step makes the next step run it. -/
def Obligations.PlacedCommandRunsNext : Prop :=
  ∀ (s : State) (w : Nat) (i : Instr), decodeTableWord 64 w = some i →
    ∃ (x : CmdWord) (n : Nat) (t : State),
      x.toNat = w % 2 ^ 64 ∧
      step (s.withFetchWord 64 w) = exec i t ∧
      t = { s.withFetchWord 64 w with
        position := (s.withFetchWord 64 w).position + 1, inFlight := some ⟨x, n⟩, justReset := false } ∧
      t.h = s.h ∧ t.len = s.len ∧ t.active = s.active ∧ t.done = s.done ∧ t.err = s.err ∧ t.ecause = s.ecause

/-! ## Invariants -/

/-- The state after reset: R181's values, and R28's invariants hold there. -/
def Obligations.ResetKeepsFlagInvariants : Prop :=
  State.reset.FlagsInv ∧ State.reset.FlightInv ∧ State.reset.busy = false ∧ observation State.reset = (0#32, 0#32, 0#32)

/-- R28: every step of the untimed model and every clock edge keep the flag invariants. -/
def Obligations.StepsKeepFlagInvariants : Prop :=
  ∀ s : State, s.FlagsInv →
    (∀ t, step s = .next t → t.FlagsInv) ∧ (∀ (p : Pins) (t : State), edge p s = .next t → t.FlagsInv)

/-- R28 for every reachable state, together with R44's bound: a command in flight has 1 to `LAT_MAX` edges left. -/
def Obligations.ReachableStatesAreSound : Prop :=
  ∀ s : State, Reachable s →
    ¬(s.active = true ∧ s.done = true) ∧
    (s.active = true → s.len.toNat % 4 = 0) ∧
    (s.err = false → s.ecause = 0b00#2) ∧
    (s.err = true → s.ecause = 1#2 ∨ s.ecause = 2#2 ∨ s.ecause = 3#2) ∧
    (∀ f, s.inFlight = some f → 1 ≤ f.left ∧ f.left ≤ Config.latMax)

/-! ## Host programs and the hash contract -/

/-- R140 in stream form: the digest by recursion on the bytes, four at a time, then the tail and the finaliser. -/
def Obligations.MurmurStreamForm : Prop :=
  ∀ (seed : Word) (data : List Byte),
    ∃ absorb : Word → List Byte → Word,
      (∀ (h : Word) (b0 b1 b2 b3 : Byte) (rest : List Byte),
        absorb h (b0 :: b1 :: b2 :: b3 :: rest) = absorb (blockMix h (le32 b0 b1 b2 b3)) rest) ∧
      (∀ h, absorb h [] = h) ∧
      (∀ h b0, absorb h [b0] = h ^^^ kmix (le32 b0 0#8 0#8 0#8)) ∧
      (∀ h b0 b1, absorb h [b0, b1] = h ^^^ kmix (le32 b0 b1 0#8 0#8)) ∧
      (∀ h b0 b1 b2, absorb h [b0, b1, b2] = h ^^^ kmix (le32 b0 b1 b2 0#8)) ∧
      murmur3 seed data = fmix32 (absorb seed data ^^^ BitVec.ofNat 32 data.length)

/-- R142: from any quiescent state and any `ERR`, the whole expansion of HASHBUF over bytes the buffer holds never
raises, and leaves the digest in `H`, the length in `LEN`, `ACTIVE = 0`, `DONE = 1`, and `ERR` and `ECAUSE` as before.
The run is of the host's script by `step`, and the fault-keeping run of R163 answers the same. -/
def Obligations.HashBufComputesMurmur3 : Prop :=
  ∀ (buf : List Byte) (seed : Word) (addr len : Nat) (s : State), s.busy = false → len ≤ buf.length - addr →
    ∃ (ws : List CmdWord) (t : State),
      assemble buf (.hashBuf seed.toNat addr len) = some ws ∧
      hostRun ws s = .next t ∧
      Host.Core.run Sys2Proof.core ws.length (loadProgram ws s) = .next t ∧
      t.h = murmur3 seed ((buf.drop addr).take len) ∧
      t.len = BitVec.ofNat 32 len ∧
      t.active = false ∧ t.done = true ∧ t.busy = false ∧ t.err = s.err ∧ t.ecause = s.ecause

/-- R143: the digest depends on the seed and the bytes alone: not on the earlier state, nor on where the bytes lie. -/
def Obligations.DigestIndependentOfEarlierState : Prop :=
  ∀ (buf buf' : List Byte) (seed : Word) (addr addr' len : Nat) (s s' : State),
    s.busy = false → s'.busy = false → len ≤ buf.length - addr → len ≤ buf'.length - addr' →
    (buf.drop addr).take len = (buf'.drop addr').take len →
    ∃ t t', hostRun (hashBufWords buf seed addr len) s = .next t ∧
      hostRun (hashBufWords buf' seed addr' len) s' = .next t' ∧ t.h = t'.h ∧ t.len = t'.len

/-- R141: the expansion of HASHBUF over bytes the buffer holds has `floor(L/4) + 2` commands: INIT, one BLOCK for each full
block in increasing order with its bytes little-endian, and `FINAL t, le32(tail..., 0...)` with the `t = L mod 4` bytes
left. -/
def Obligations.HashBufExpansion : Prop :=
  ∀ (buf : List Byte) (seed : Word) (addr len : Nat), len ≤ buf.length - addr →
    let tail := fun i => if i < len % 4 then buf.getD (addr + 4 * (len / 4) + i) 0#8 else 0#8
    (hashBufWords buf seed addr len).length = len / 4 + 2 ∧
    (hashBufWords buf seed addr len)[0]? = some (encode (.init seed)) ∧
    (∀ j, j < len / 4 →
      (hashBufWords buf seed addr len)[j + 1]? =
        some (encode (.block (le32 (buf.getD (addr + 4 * j) 0#8) (buf.getD (addr + 4 * j + 1) 0#8)
          (buf.getD (addr + 4 * j + 2) 0#8) (buf.getD (addr + 4 * j + 3) 0#8))))) ∧
    (hashBufWords buf seed addr len)[len / 4 + 1]? =
      some (encode (.final (BitVec.ofNat 2 (len % 4)) (le32 (tail 0) (tail 1) (tail 2) 0#8)))

/-- R163: over a run without a reset from `ERR = 0`, the model's fault and the hardware's `ERR` agree: the run that keeps
faults answers the hardware's end state exactly when `ERR = 0` there, and otherwise names the cause `ECAUSE` holds. -/
def Obligations.RunFaultsExactlyWhenErrIsSet : Prop :=
  ∀ (ws : List CmdWord) (s : State), s.busy = false → s.err = false →
    ∃ t, Host.Core.run Sys2Proof.core ws.length (loadProgram ws s) = .next t ∧
      ((t.err = false ∧ hostRun ws s = .next t) ∨
       (∃ c : Cause, t.err = true ∧ t.ecause = c.code ∧ hostRun ws s = .fault (.illegalCommand c)))

/-- R189's liveness at the clock: a host program driven at the ports, each command presented once the block is ready, is
an admitted run that ends in the untimed run's observation within `LAT_MAX + 1` edges a command: its accepting edge and
at most `LAT_MAX` after it. -/
def Obligations.ClockedProgramRefinesUntimedRun : Prop :=
  ∀ (ws : List CmdWord) (s : State), s.busy = false →
    ∃ t u, runPins (clockedPins ws s) s = .next t ∧
      Host.Core.run Sys2Proof.core ws.length (loadProgram ws s) = .next u ∧
      observation t = observation u ∧ t.busy = false ∧
      (clockedPins ws s).length ≤ ws.length * (Config.latMax + 1)

/-- R144: chaining is HASHBUF, a read of `h_out`, and HASHBUF again with that seed: `n` rounds iterate the digest. Over
bytes the buffer does not hold a chained run is refused (the model's choice, log entry 8). -/
def Obligations.ChainedRunsIterateTheDigest : Prop :=
  ∀ (buf : List Byte) (addr len n : Nat) (seed : Word) (s : State),
    (s.busy = false → len ≤ buf.length - addr →
      ∃ t, chainRun buf addr len n seed s = .next ((fun h => murmur3 h ((buf.drop addr).take len))^[n] seed, t)) ∧
    (buf.length - addr < len → 0 < n → chainRun buf addr len n seed s = .refused .outsideBuffer)

/-! ## The assembler, the host's duty, several blocks -/

/-- R69: what the assembler refuses, the words of what it takes, and that `.word64` is the only way to spell an illegal
command. -/
def Obligations.AssemblerAcceptsAndRefuses : Prop :=
  (∀ (buf : List Byte) (n : Nat),
    assemble buf (.cmd (.init n)) = (if n < 2 ^ 32 then some [encode (.init (BitVec.ofNat 32 n))] else none) ∧
    assemble buf (.cmd (.block n)) = (if n < 2 ^ 32 then some [encode (.block (BitVec.ofNat 32 n))] else none)) ∧
  (∀ (buf : List Byte) (t n : Nat),
    assemble buf (.cmd (.final t none)) = (if t ≤ 3 then some [encode (.final (BitVec.ofNat 2 t) 0#32)] else none) ∧
    assemble buf (.cmd (.final t (some n))) =
      (if t ≤ 3 ∧ n < 2 ^ 32 then some [encode (.final (BitVec.ofNat 2 t) (BitVec.ofNat 32 n))] else none)) ∧
  (∀ (buf : List Byte) (w : CmdWord), assemble buf (.cmd (.word64 w.toNat)) = some [w]) ∧
  (∀ (buf : List Byte) (a : Asm) (ws : List CmdWord) (w : CmdWord), (∀ n, a ≠ .word64 n) →
    assemble buf (.cmd a) = some ws → w ∈ ws → ∃ i, decode w = .ok i)

/-- R70: the byte-wise pseudo-instructions and their expansions. -/
def Obligations.PseudoInstructionExpansions : Prop :=
  ∀ (buf : List Byte) (b0 b1 b2 b3 : Byte),
    assemble buf (.cmd (.blockB b0.toNat b1.toNat b2.toNat b3.toNat)) =
      some [encode (.block (le32 b0 b1 b2 b3))] ∧
    assemble buf (.cmd (.finalB [])) = some [encode (.final 0#2 0#32)] ∧
    assemble buf (.cmd (.finalB [b0.toNat])) = some [encode (.final 1#2 (le32 b0 0#8 0#8 0#8))] ∧
    assemble buf (.cmd (.finalB [b0.toNat, b1.toNat])) = some [encode (.final 2#2 (le32 b0 b1 0#8 0#8))] ∧
    assemble buf (.cmd (.finalB [b0.toNat, b1.toNat, b2.toNat])) = some [encode (.final 3#2 (le32 b0 b1 b2 0#8))]

/-- R186: a host that changes `cmd_word` or drops `cmd_valid` before acceptance, at whichever edge of its run, is not
admitted; one that never does is admitted, and its run is the block's. Edges with `rst = 1`, where `cmd_ready` is 0, are
covered too: that is the model's literal reading (log entry 14). -/
def Obligations.ChangedCommandIsNotAdmitted : Prop :=
  (∀ (pre : List Pins) (p q : Pins) (ps : List Pins) (s t : State), runEdges pre s = .next t →
    p.cmdValid = true → cmdReady p.rst t = false → q.cmdValid = false ∨ q.cmdWord ≠ p.cmdWord →
    runPins (pre ++ p :: q :: ps) s = .refused .commandChanged) ∧
  (∀ (ps : List Pins) (s : State),
    (∀ (pre : List Pins) (p q : Pins) (post : List Pins) (t : State), ps = pre ++ p :: q :: post →
      runEdges pre s = .next t → p.cmdValid = true → cmdReady p.rst t = false →
      q.cmdValid = true ∧ q.cmdWord = p.cmdWord) →
    runPins ps s = runEdges ps s ∧ ∃ t, runPins ps s = .next t) ∧
  (∀ (ps : List Pins) (s : State), hostHoldsCommand ps s = true → runPins ps s = runEdges ps s ∧
    ∃ t, runPins ps s = .next t)

/-- R58: a command to one block changes no other block. -/
def Obligations.BlocksShareNoState : Prop :=
  ∀ (i : Nat) (p : Pins) (blocks : List State) (s : State), blocks[i]? = some s →
    ∃ (blocks' : List State) (t : State), edgeAt i p blocks = .next blocks' ∧ edge p s = .next t ∧
      blocks'[i]? = some t ∧ ∀ j, j ≠ i → blocks'[j]? = blocks[j]?

/-! ## The reset cycle -/

/-- What every clock edge does beside the registers: the host's script, its position and the model's own draw count stay,
a reset edge included (the model's choice, log entries 3, 11 and 17), and the mark of the reset cycle is set by an edge
with `rst = 1` and cleared by any other (the model's reading, log entry 6). -/
def Obligations.EdgeFrame : Prop :=
  ∀ (p : Pins) (s t : State), edge p s = .next t →
    t.program = s.program ∧ t.position = s.position ∧ t.draws = s.draws ∧ t.justReset = p.rst

/-- R45's reset cycle over edges: the three outputs are free at a reset edge and at the first edge after it, where
`cmd_ready` is 1 again if `rst = 0` (R182); if nothing is presented there, the edge after that one shows the reset state.
No reachable state has a command in flight in the reset cycle. The edges of the cycle are the model's reading (log entry
6), and the free values its own (log entry 3). -/
def Obligations.ResetCycleOutputs : Prop :=
  (∀ (p q : Pins) (s t u : State), p.rst = true → edge p s = .next t → edge q t = .next u →
    (sampleOutputs p.rst s).1 =
      ⟨false, Config.freeOut s.draws, Config.freeOut (s.draws + 1), Config.freeOut (s.draws + 2)⟩ ∧
    (sampleOutputs q.rst t).1 =
      ⟨!q.rst, Config.freeOut t.draws, Config.freeOut (t.draws + 1), Config.freeOut (t.draws + 2)⟩ ∧
    (q.rst = false → u.justReset = false ∧
      (q.cmdValid = false → (sampleOutputs false u).1 = ⟨true, 0#32, 0#32, 0#32⟩))) ∧
  (∀ s : State, Reachable s → s.justReset = true → s.busy = false)
end

