-- ==== Sys2Proof/Laws/Config.lean ====
section
/-! SUPPORT. The bound of the open latencies (R6). -/

namespace Sys2Proof.Config

theorem latencyFrom_pos (raw : Nat) : 1 ≤ latencyFrom raw := by
  unfold latencyFrom; omega

theorem latencyFrom_le (raw : Nat) : latencyFrom raw ≤ latMax := by
  have : raw % latMax < latMax := Nat.mod_lt _ (by unfold latMax; omega)
  unfold latencyFrom; omega

end Sys2Proof.Config
end

