-- ==== Sys2Proof/Laws/Operands.lean ====
section
/-! SUPPORT. What the conversions and operand forms do, as numbers and as bytes (R8, R9, R110). -/

namespace Sys2Proof.Machine

theorem rotl32_eq_rotateLeft (x : Word) (r : Nat) (h : r < 32) : rotl32 x r = x.rotateLeft r := by
  rw [BitVec.rotateLeft_eq_rotateLeftAux_of_lt h]
  rfl

/-- A circular rotate as arithmetic: the bits that leave at the top come in at the bottom (R8). -/
theorem rotl32_toNat (x : Word) (r : Nat) (h : r < 32) :
    (rotl32 x r).toNat = x.toNat * 2 ^ r % 2 ^ 32 + x.toNat / 2 ^ (32 - r) := by
  have hd : (x <<< r) &&& (x >>> (32 - r)) = 0#32 := by
    ext i hi
    simp only [BitVec.getElem_and, BitVec.getElem_shiftLeft, BitVec.getElem_ushiftRight, BitVec.getElem_zero]
    by_cases h1 : i < r
    · simp [h1]
    · simp [h1, BitVec.getLsbD_of_ge x (32 - r + i) (by omega)]
  have hx := x.isLt
  have hpow : 2 ^ (32 - r) * 2 ^ r = 2 ^ 32 := by rw [← Nat.pow_add]; congr 1; omega
  have hlt : x.toNat / 2 ^ (32 - r) < 2 ^ r := by
    rw [Nat.div_lt_iff_lt_mul (by positivity), Nat.mul_comm, hpow]; exact hx
  have hsum : x.toNat * 2 ^ r % 2 ^ 32 + x.toNat / 2 ^ (32 - r) < 2 ^ 32 := by
    have : x.toNat * 2 ^ r % 2 ^ 32 = x.toNat % 2 ^ (32 - r) * 2 ^ r := by
      rw [← hpow, Nat.mul_mod_mul_right]
    have hm : x.toNat % 2 ^ (32 - r) < 2 ^ (32 - r) := Nat.mod_lt _ (by positivity)
    have : (x.toNat % 2 ^ (32 - r) + 1) * 2 ^ r ≤ 2 ^ (32 - r) * 2 ^ r := Nat.mul_le_mul_right _ hm
    rw [hpow] at this
    have e : (x.toNat % 2 ^ (32 - r) + 1) * 2 ^ r = x.toNat % 2 ^ (32 - r) * 2 ^ r + 2 ^ r := by ring
    omega
  rw [rotl32, ← BitVec.add_eq_or_of_and_eq_zero _ _ hd, BitVec.toNat_add]
  simp only [BitVec.toNat_shiftLeft, BitVec.toNat_ushiftRight, Nat.shiftLeft_eq, Nat.shiftRight_eq_div_pow]
  exact Nat.mod_eq_of_lt hsum

/-- A word is its four bytes, byte 0 lowest (R9). -/
theorem le32_toNat (b0 b1 b2 b3 : Byte) :
    (le32 b0 b1 b2 b3).toNat = b0.toNat + 2 ^ 8 * b1.toNat + 2 ^ 16 * b2.toNat + 2 ^ 24 * b3.toNat := by
  have h0 := b0.isLt
  have h1 := b1.isLt
  have h2 := b2.isLt
  have e : (le32 b0 b1 b2 b3).toNat = (b3 ++ b2 ++ b1 ++ b0).toNat := rfl
  rw [e]
  simp only [BitVec.toNat_append]
  rw [← Nat.shiftLeft_add_eq_or_of_lt h2, ← Nat.shiftLeft_add_eq_or_of_lt h1, ← Nat.shiftLeft_add_eq_or_of_lt h0]
  simp only [Nat.shiftLeft_eq]
  omega

theorem byteOf_toNat (x : Word) (i : Nat) : (byteOf x i).toNat = x.toNat / 2 ^ (8 * i) % 2 ^ 8 := by
  simp [byteOf, BitVec.extractLsb'_toNat, Nat.shiftRight_eq_div_pow]

@[simp] theorem byteOf_le32_zero (b0 b1 b2 b3 : Byte) : byteOf (le32 b0 b1 b2 b3) 0 = b0 := by
  apply BitVec.eq_of_toNat_eq
  rw [byteOf_toNat, le32_toNat]
  omega

@[simp] theorem byteOf_le32_one (b0 b1 b2 b3 : Byte) : byteOf (le32 b0 b1 b2 b3) 1 = b1 := by
  apply BitVec.eq_of_toNat_eq
  rw [byteOf_toNat, le32_toNat]
  omega

@[simp] theorem byteOf_le32_two (b0 b1 b2 b3 : Byte) : byteOf (le32 b0 b1 b2 b3) 2 = b2 := by
  apply BitVec.eq_of_toNat_eq
  rw [byteOf_toNat, le32_toNat]
  omega

@[simp] theorem byteOf_le32_three (b0 b1 b2 b3 : Byte) : byteOf (le32 b0 b1 b2 b3) 3 = b3 := by
  apply BitVec.eq_of_toNat_eq
  rw [byteOf_toNat, le32_toNat]
  omega

/-- The packed tail as a number: the bits of `d` below bit `8t` (R110). -/
theorem packTail_toNat (d : Word) (t : BitVec 2) : (packTail d t).toNat = d.toNat % 2 ^ (8 * t.toNat) := by
  have hd := d.isLt
  have ht : t = 0#2 ∨ t = 1#2 ∨ t = 2#2 ∨ t = 3#2 := by
    have : ∀ u : BitVec 2, u = 0#2 ∨ u = 1#2 ∨ u = 2#2 ∨ u = 3#2 := by decide
    exact this t
  rcases ht with rfl | rfl | rfl | rfl
  · simp [packTail, Nat.mod_one]
  all_goals
    simp only [packTail, zext32, BitVec.toNat_setWidth, BitVec.extractLsb'_toNat, Nat.shiftRight_zero, reduceIte,
      BitVec.reduceEq, BitVec.toNat_ofNat, Nat.reduceMod, Nat.reducePow, Nat.reduceMul]
    omega

/-- When the host's buffer holds the bytes a HASHBUF reads (R141; log entry 8). -/
@[simp] theorem bufferHolds_iff (buf : List Byte) (addr len : Nat) :
    bufferHolds buf addr len = true ↔ len ≤ buf.length - addr := by
  simp [bufferHolds]

end Sys2Proof.Machine
end

