-- ==== Sys2Proof/Laws/Datapath.lean ====
section
/-! SUPPORT. The datapath's functions as compositions of their steps (R92, R93, R111, R114), and each step as arithmetic
modulo `2^32` (R8). -/

namespace Sys2Proof.Machine

theorem kmix_eq (k : Word) : kmix k = rotl32 (k * c1) 15 * c2 := rfl

theorem blockMix_eq (h k : Word) : blockMix h k = rotl32 (h ^^^ kmix k) 13 * mulM + addN := rfl

theorem fmix32_eq (h : Word) :
    fmix32 h = xorShiftRight (xorShiftRight (xorShiftRight h 16 * f1) 13 * f2) 16 := rfl

@[simp] theorem tailMix_zero (h d : Word) : tailMix h d 0#2 = h := by
  simp [tailMix]

theorem tailMix_of_ne_zero (h d : Word) {t : BitVec 2} (ht : t ≠ 0#2) :
    tailMix h d t = h ^^^ kmix (packTail d t) := by
  simp [tailMix, ht]

theorem mul_c1_toNat (x : Word) : (x * c1).toNat = x.toNat * 0xcc9e2d51 % 2 ^ 32 := by
  rw [BitVec.toNat_mul, show c1.toNat = 0xcc9e2d51 from by decide]

theorem mul_c2_toNat (x : Word) : (x * c2).toNat = x.toNat * 0x1b873593 % 2 ^ 32 := by
  rw [BitVec.toNat_mul, show c2.toNat = 0x1b873593 from by decide]

theorem mul_f1_toNat (x : Word) : (x * f1).toNat = x.toNat * 0x85ebca6b % 2 ^ 32 := by
  rw [BitVec.toNat_mul, show f1.toNat = 0x85ebca6b from by decide]

theorem mul_f2_toNat (x : Word) : (x * f2).toNat = x.toNat * 0xc2b2ae35 % 2 ^ 32 := by
  rw [BitVec.toNat_mul, show f2.toNat = 0xc2b2ae35 from by decide]

theorem mulM_addN_toNat (x : Word) : (x * mulM + addN).toNat = (x.toNat * 5 + 0xe6546b64) % 2 ^ 32 := by
  rw [BitVec.toNat_add, BitVec.toNat_mul, show mulM.toNat = 5 from by decide,
    show addN.toNat = 0xe6546b64 from by decide, Nat.mod_add_mod]

theorem xorShiftRight_toNat (x : Word) (n : Nat) : (xorShiftRight x n).toNat = x.toNat ^^^ x.toNat / 2 ^ n := by
  rw [xorShiftRight, BitVec.toNat_xor, BitVec.toNat_ushiftRight, Nat.shiftRight_eq_div_pow]

theorem packTail_congr {d d' : Word} {t : BitVec 2}
    (h : d.toNat % 2 ^ (8 * t.toNat) = d'.toNat % 2 ^ (8 * t.toNat)) : packTail d t = packTail d' t := by
  apply BitVec.eq_of_toNat_eq
  rw [packTail_toNat, packTail_toNat, h]

end Sys2Proof.Machine
end

