-- ==== Sys2Proof/Laws/Decode.lean ====
section
/-! SUPPORT. The fields of a command word as numbers, the fields of a packed word, and a word rebuilt from its fields
(R60). -/

namespace Sys2Proof

theorem opField_toNat (w : CmdWord) : (opField w).toNat = w.toNat % 16 := by
  simp [opField, BitVec.extractLsb'_toNat]

theorem tlenField_toNat (w : CmdWord) : (tlenField w).toNat = w.toNat / 16 % 4 := by
  simp [tlenField, BitVec.extractLsb'_toNat, Nat.shiftRight_eq_div_pow]

theorem rsvdField_toNat (w : CmdWord) : (rsvdField w).toNat = w.toNat / 64 % 2 ^ 26 := by
  simp [rsvdField, BitVec.extractLsb'_toNat, Nat.shiftRight_eq_div_pow]

theorem dataField_toNat (w : CmdWord) : (dataField w).toNat = w.toNat / 2 ^ 32 := by
  have := w.isLt
  simp only [dataField, BitVec.extractLsb'_toNat, Nat.shiftRight_eq_div_pow]
  omega

/-- A packed word as a number. -/
theorem packCommand_toNat (d : Word) (t : BitVec 2) (o : BitVec 4) :
    (packCommand d t o).toNat = d.toNat * 2 ^ 32 + t.toNat * 16 + o.toNat := by
  have ho := o.isLt
  have ht := t.isLt
  have e : (packCommand d t o).toNat = (d ++ (0#26 : BitVec 26) ++ t ++ o).toNat := rfl
  rw [e]
  simp only [BitVec.toNat_append, BitVec.toNat_ofNat]
  rw [← Nat.shiftLeft_add_eq_or_of_lt ho, ← Nat.shiftLeft_add_eq_or_of_lt ht,
    ← Nat.shiftLeft_add_eq_or_of_lt (show 0 % 2 ^ 26 < 2 ^ 26 by decide)]
  simp only [Nat.shiftLeft_eq]
  omega

@[simp] theorem opField_packCommand (d : Word) (t : BitVec 2) (o : BitVec 4) : opField (packCommand d t o) = o := by
  apply BitVec.eq_of_toNat_eq
  rw [opField_toNat, packCommand_toNat]
  omega

@[simp] theorem tlenField_packCommand (d : Word) (t : BitVec 2) (o : BitVec 4) :
    tlenField (packCommand d t o) = t := by
  apply BitVec.eq_of_toNat_eq
  rw [tlenField_toNat, packCommand_toNat]
  omega

@[simp] theorem rsvdField_packCommand (d : Word) (t : BitVec 2) (o : BitVec 4) :
    rsvdField (packCommand d t o) = 0#26 := by
  apply BitVec.eq_of_toNat_eq
  rw [rsvdField_toNat, packCommand_toNat, BitVec.toNat_ofNat]
  omega

@[simp] theorem dataField_packCommand (d : Word) (t : BitVec 2) (o : BitVec 4) :
    dataField (packCommand d t o) = d := by
  apply BitVec.eq_of_toNat_eq
  rw [dataField_toNat, packCommand_toNat]
  omega

/-- A word whose reserved field is 0 is its other fields packed. -/
theorem packCommand_fields (w : CmdWord) (h : rsvdField w = 0#26) :
    packCommand (dataField w) (tlenField w) (opField w) = w := by
  have hr : w.toNat / 64 % 2 ^ 26 = 0 := by rw [← rsvdField_toNat, h]; rfl
  apply BitVec.eq_of_toNat_eq
  rw [packCommand_toNat, dataField_toNat, tlenField_toNat, opField_toNat]
  omega

/-- A mask of the low 32 bits keeps a word's value modulo `2^32`. -/
theorem toNat_and_low32 (w : CmdWord) : (w &&& 0x00000000FFFFFFFF#64).toNat = w.toNat % 2 ^ 32 := by
  rw [BitVec.toNat_and]
  exact Nat.and_two_pow_sub_one_eq_mod w.toNat 32

theorem opField_cases (w : CmdWord) :
    (opField w = opInit ↔ w.toNat % 16 = 1) ∧ (opField w = opBlock ↔ w.toNat % 16 = 2) ∧
      (opField w = opFinal ↔ w.toNat % 16 = 3) := by
  simp only [← BitVec.toNat_inj, opField_toNat]
  exact ⟨Iff.rfl, Iff.rfl, Iff.rfl⟩

theorem rsvdField_zero_iff (w : CmdWord) : rsvdField w = 0#26 ↔ w.toNat / 64 % 2 ^ 26 = 0 := by
  rw [← BitVec.toNat_inj, rsvdField_toNat]
  rfl

theorem tlenField_zero_iff (w : CmdWord) : tlenField w = 0#2 ↔ w.toNat / 16 % 4 = 0 := by
  rw [← BitVec.toNat_inj, tlenField_toNat]
  rfl

/-- The decoder, by the five ways it can answer (R66), with the conditions as arithmetic on the word. -/
theorem decode_cases (w : CmdWord) :
    ((w.toNat % 16 ≠ 1 ∧ w.toNat % 16 ≠ 2 ∧ w.toNat % 16 ≠ 3) ∧ decode w = .error .reservedOpcode) ∨
    (((w.toNat % 16 = 1 ∨ w.toNat % 16 = 2 ∨ w.toNat % 16 = 3) ∧
      (w.toNat / 64 % 2 ^ 26 ≠ 0 ∨ (w.toNat / 16 % 4 ≠ 0 ∧ w.toNat % 16 ≠ 3))) ∧
      decode w = .error .reservedField) ∨
    (w.toNat % 2 ^ 32 = 1 ∧ decode w = .ok (.init (dataField w))) ∨
    (w.toNat % 2 ^ 32 = 2 ∧ decode w = .ok (.block (dataField w))) ∨
    ((w.toNat % 16 = 3 ∧ w.toNat / 64 % 2 ^ 26 = 0) ∧ decode w = .ok (.final (tlenField w) (dataField w))) := by
  obtain ⟨hi, hb, hf⟩ := opField_cases w
  simp only [decode, ne_eq, hi, hb, hf, rsvdField_zero_iff, tlenField_zero_iff]
  split
  · exact .inl ⟨by assumption, rfl⟩
  split
  · exact .inr (.inl ⟨by omega, rfl⟩)
  split
  · exact .inr (.inl ⟨by omega, rfl⟩)
  split
  · exact .inr (.inr (.inl ⟨by omega, rfl⟩))
  split
  · exact .inr (.inr (.inr (.inl ⟨by omega, rfl⟩)))
  · exact .inr (.inr (.inr (.inr ⟨by omega, rfl⟩)))

end Sys2Proof
end

