-- ==== Sys2Proof/Laws/State.lean ====
section
/-! SUPPORT. The fields of a state after each update, so that no later proof unfolds a record update. -/

namespace Sys2Proof.Machine

@[simp] theorem State.writeH_h (s : State) (v : Word) : (s.writeH v).h = v := by cases s; rfl
@[simp] theorem State.writeH_len (s : State) (v : Word) : (s.writeH v).len = s.len := by cases s; rfl
@[simp] theorem State.writeH_active (s : State) (v : Word) : (s.writeH v).active = s.active := by cases s; rfl
@[simp] theorem State.writeH_done (s : State) (v : Word) : (s.writeH v).done = s.done := by cases s; rfl
@[simp] theorem State.writeH_err (s : State) (v : Word) : (s.writeH v).err = s.err := by cases s; rfl
@[simp] theorem State.writeH_ecause (s : State) (v : Word) : (s.writeH v).ecause = s.ecause := by cases s; rfl
@[simp] theorem State.writeH_inFlight (s : State) (v : Word) : (s.writeH v).inFlight = s.inFlight := by cases s; rfl
@[simp] theorem State.writeH_justReset (s : State) (v : Word) : (s.writeH v).justReset = s.justReset := by cases s; rfl
@[simp] theorem State.writeH_program (s : State) (v : Word) : (s.writeH v).program = s.program := by cases s; rfl
@[simp] theorem State.writeH_position (s : State) (v : Word) : (s.writeH v).position = s.position := by cases s; rfl
@[simp] theorem State.writeH_draws (s : State) (v : Word) : (s.writeH v).draws = s.draws := by cases s; rfl

@[simp] theorem State.writeLen_h (s : State) (v : Word) : (s.writeLen v).h = s.h := by cases s; rfl
@[simp] theorem State.writeLen_len (s : State) (v : Word) : (s.writeLen v).len = v := by cases s; rfl
@[simp] theorem State.writeLen_active (s : State) (v : Word) : (s.writeLen v).active = s.active := by cases s; rfl
@[simp] theorem State.writeLen_done (s : State) (v : Word) : (s.writeLen v).done = s.done := by cases s; rfl
@[simp] theorem State.writeLen_err (s : State) (v : Word) : (s.writeLen v).err = s.err := by cases s; rfl
@[simp] theorem State.writeLen_ecause (s : State) (v : Word) : (s.writeLen v).ecause = s.ecause := by cases s; rfl
@[simp] theorem State.writeLen_inFlight (s : State) (v : Word) : (s.writeLen v).inFlight = s.inFlight := by cases s; rfl
@[simp] theorem State.writeLen_justReset (s : State) (v : Word) : (s.writeLen v).justReset = s.justReset := by cases s; rfl
@[simp] theorem State.writeLen_program (s : State) (v : Word) : (s.writeLen v).program = s.program := by cases s; rfl
@[simp] theorem State.writeLen_position (s : State) (v : Word) : (s.writeLen v).position = s.position := by cases s; rfl
@[simp] theorem State.writeLen_draws (s : State) (v : Word) : (s.writeLen v).draws = s.draws := by cases s; rfl

@[simp] theorem State.writeSession_h (s : State) (a d : Bool) : (s.writeSession a d).h = s.h := by cases s; rfl
@[simp] theorem State.writeSession_len (s : State) (a d : Bool) : (s.writeSession a d).len = s.len := by cases s; rfl
@[simp] theorem State.writeSession_active (s : State) (a d : Bool) : (s.writeSession a d).active = a := by cases s; rfl
@[simp] theorem State.writeSession_done (s : State) (a d : Bool) : (s.writeSession a d).done = d := by cases s; rfl
@[simp] theorem State.writeSession_err (s : State) (a d : Bool) : (s.writeSession a d).err = s.err := by cases s; rfl
@[simp] theorem State.writeSession_ecause (s : State) (a d : Bool) : (s.writeSession a d).ecause = s.ecause := by cases s; rfl
@[simp] theorem State.writeSession_inFlight (s : State) (a d : Bool) : (s.writeSession a d).inFlight = s.inFlight := by cases s; rfl
@[simp] theorem State.writeSession_justReset (s : State) (a d : Bool) : (s.writeSession a d).justReset = s.justReset := by cases s; rfl
@[simp] theorem State.writeSession_program (s : State) (a d : Bool) : (s.writeSession a d).program = s.program := by cases s; rfl
@[simp] theorem State.writeSession_position (s : State) (a d : Bool) : (s.writeSession a d).position = s.position := by cases s; rfl
@[simp] theorem State.writeSession_draws (s : State) (a d : Bool) : (s.writeSession a d).draws = s.draws := by cases s; rfl

@[simp] theorem State.finish_h (s : State) : (s.finish).h = s.h := by cases s; rfl
@[simp] theorem State.finish_len (s : State) : (s.finish).len = s.len := by cases s; rfl
@[simp] theorem State.finish_active (s : State) : (s.finish).active = s.active := by cases s; rfl
@[simp] theorem State.finish_done (s : State) : (s.finish).done = s.done := by cases s; rfl
@[simp] theorem State.finish_err (s : State) : (s.finish).err = s.err := by cases s; rfl
@[simp] theorem State.finish_ecause (s : State) : (s.finish).ecause = s.ecause := by cases s; rfl
@[simp] theorem State.finish_inFlight (s : State) : (s.finish).inFlight = none := by cases s; rfl
@[simp] theorem State.finish_justReset (s : State) : (s.finish).justReset = s.justReset := by cases s; rfl
@[simp] theorem State.finish_program (s : State) : (s.finish).program = s.program := by cases s; rfl
@[simp] theorem State.finish_position (s : State) : (s.finish).position = s.position := by cases s; rfl
@[simp] theorem State.finish_draws (s : State) : (s.finish).draws = s.draws := by cases s; rfl

@[simp] theorem State.advance_h (s : State) : (s.advance).h = s.h := by cases s; rfl
@[simp] theorem State.advance_len (s : State) : (s.advance).len = s.len := by cases s; rfl
@[simp] theorem State.advance_active (s : State) : (s.advance).active = s.active := by cases s; rfl
@[simp] theorem State.advance_done (s : State) : (s.advance).done = s.done := by cases s; rfl
@[simp] theorem State.advance_err (s : State) : (s.advance).err = s.err := by cases s; rfl
@[simp] theorem State.advance_ecause (s : State) : (s.advance).ecause = s.ecause := by cases s; rfl
@[simp] theorem State.advance_inFlight (s : State) : (s.advance).inFlight = s.inFlight := by cases s; rfl
@[simp] theorem State.advance_justReset (s : State) : (s.advance).justReset = s.justReset := by cases s; rfl
@[simp] theorem State.advance_program (s : State) : (s.advance).program = s.program := by cases s; rfl
@[simp] theorem State.advance_position (s : State) : (s.advance).position = s.position + 1 := by cases s; rfl
@[simp] theorem State.advance_draws (s : State) : (s.advance).draws = s.draws := by cases s; rfl

@[simp] theorem State.accept_h (s : State) (w : CmdWord) : (s.accept w).h = s.h := by cases s; rfl
@[simp] theorem State.accept_len (s : State) (w : CmdWord) : (s.accept w).len = s.len := by cases s; rfl
@[simp] theorem State.accept_active (s : State) (w : CmdWord) : (s.accept w).active = s.active := by cases s; rfl
@[simp] theorem State.accept_done (s : State) (w : CmdWord) : (s.accept w).done = s.done := by cases s; rfl
@[simp] theorem State.accept_err (s : State) (w : CmdWord) : (s.accept w).err = s.err := by cases s; rfl
@[simp] theorem State.accept_ecause (s : State) (w : CmdWord) : (s.accept w).ecause = s.ecause := by cases s; rfl
@[simp] theorem State.accept_inFlight (s : State) (w : CmdWord) : (s.accept w).inFlight = some ⟨w, latencyOf w s⟩ := by cases s; rfl
@[simp] theorem State.accept_justReset (s : State) (w : CmdWord) : (s.accept w).justReset = s.justReset := by cases s; rfl
@[simp] theorem State.accept_program (s : State) (w : CmdWord) : (s.accept w).program = s.program := by cases s; rfl
@[simp] theorem State.accept_position (s : State) (w : CmdWord) : (s.accept w).position = s.position := by cases s; rfl
@[simp] theorem State.accept_draws (s : State) (w : CmdWord) : (s.accept w).draws = s.draws := by cases s; rfl

@[simp] theorem State.leaveReset_h (s : State) : (s.leaveReset).h = s.h := by cases s; rfl
@[simp] theorem State.leaveReset_len (s : State) : (s.leaveReset).len = s.len := by cases s; rfl
@[simp] theorem State.leaveReset_active (s : State) : (s.leaveReset).active = s.active := by cases s; rfl
@[simp] theorem State.leaveReset_done (s : State) : (s.leaveReset).done = s.done := by cases s; rfl
@[simp] theorem State.leaveReset_err (s : State) : (s.leaveReset).err = s.err := by cases s; rfl
@[simp] theorem State.leaveReset_ecause (s : State) : (s.leaveReset).ecause = s.ecause := by cases s; rfl
@[simp] theorem State.leaveReset_inFlight (s : State) : (s.leaveReset).inFlight = s.inFlight := by cases s; rfl
@[simp] theorem State.leaveReset_justReset (s : State) : (s.leaveReset).justReset = false := by cases s; rfl
@[simp] theorem State.leaveReset_program (s : State) : (s.leaveReset).program = s.program := by cases s; rfl
@[simp] theorem State.leaveReset_position (s : State) : (s.leaveReset).position = s.position := by cases s; rfl
@[simp] theorem State.leaveReset_draws (s : State) : (s.leaveReset).draws = s.draws := by cases s; rfl

@[simp] theorem State.resetBlock_h (s : State) : (s.resetBlock).h = 0#32 := by cases s; rfl
@[simp] theorem State.resetBlock_len (s : State) : (s.resetBlock).len = 0#32 := by cases s; rfl
@[simp] theorem State.resetBlock_active (s : State) : (s.resetBlock).active = false := by cases s; rfl
@[simp] theorem State.resetBlock_done (s : State) : (s.resetBlock).done = false := by cases s; rfl
@[simp] theorem State.resetBlock_err (s : State) : (s.resetBlock).err = false := by cases s; rfl
@[simp] theorem State.resetBlock_ecause (s : State) : (s.resetBlock).ecause = 0#2 := by cases s; rfl
@[simp] theorem State.resetBlock_inFlight (s : State) : (s.resetBlock).inFlight = none := by cases s; rfl
@[simp] theorem State.resetBlock_justReset (s : State) : (s.resetBlock).justReset = true := by cases s; rfl
@[simp] theorem State.resetBlock_program (s : State) : (s.resetBlock).program = s.program := by cases s; rfl
@[simp] theorem State.resetBlock_position (s : State) : (s.resetBlock).position = s.position := by cases s; rfl
@[simp] theorem State.resetBlock_draws (s : State) : (s.resetBlock).draws = s.draws := by cases s; rfl

@[simp] theorem State.draw_h (s : State) (n : Nat) : (s.draw n).h = s.h := by cases s; rfl
@[simp] theorem State.draw_len (s : State) (n : Nat) : (s.draw n).len = s.len := by cases s; rfl
@[simp] theorem State.draw_active (s : State) (n : Nat) : (s.draw n).active = s.active := by cases s; rfl
@[simp] theorem State.draw_done (s : State) (n : Nat) : (s.draw n).done = s.done := by cases s; rfl
@[simp] theorem State.draw_err (s : State) (n : Nat) : (s.draw n).err = s.err := by cases s; rfl
@[simp] theorem State.draw_ecause (s : State) (n : Nat) : (s.draw n).ecause = s.ecause := by cases s; rfl
@[simp] theorem State.draw_inFlight (s : State) (n : Nat) : (s.draw n).inFlight = s.inFlight := by cases s; rfl
@[simp] theorem State.draw_justReset (s : State) (n : Nat) : (s.draw n).justReset = s.justReset := by cases s; rfl
@[simp] theorem State.draw_program (s : State) (n : Nat) : (s.draw n).program = s.program := by cases s; rfl
@[simp] theorem State.draw_position (s : State) (n : Nat) : (s.draw n).position = s.position := by cases s; rfl
@[simp] theorem State.draw_draws (s : State) (n : Nat) : (s.draw n).draws = s.draws + n := by cases s; rfl

/-! ## The conditional update: recording an error -/

@[simp] theorem State.recordError_h (s : State) (c : Cause) : (s.recordError c).h = s.h := by
  cases h : s.err <;> simp [State.recordError, h]
@[simp] theorem State.recordError_len (s : State) (c : Cause) : (s.recordError c).len = s.len := by
  cases h : s.err <;> simp [State.recordError, h]
@[simp] theorem State.recordError_active (s : State) (c : Cause) : (s.recordError c).active = s.active := by
  cases h : s.err <;> simp [State.recordError, h]
@[simp] theorem State.recordError_done (s : State) (c : Cause) : (s.recordError c).done = s.done := by
  cases h : s.err <;> simp [State.recordError, h]
@[simp] theorem State.recordError_err (s : State) (c : Cause) : (s.recordError c).err = true := by
  cases h : s.err <;> simp [State.recordError, h]
@[simp] theorem State.recordError_ecause (s : State) (c : Cause) :
    (s.recordError c).ecause = if s.err then s.ecause else c.code := by
  cases h : s.err <;> simp [State.recordError, h]
@[simp] theorem State.recordError_inFlight (s : State) (c : Cause) : (s.recordError c).inFlight = s.inFlight := by
  cases h : s.err <;> simp [State.recordError, h]
@[simp] theorem State.recordError_justReset (s : State) (c : Cause) : (s.recordError c).justReset = s.justReset := by
  cases h : s.err <;> simp [State.recordError, h]
@[simp] theorem State.recordError_program (s : State) (c : Cause) : (s.recordError c).program = s.program := by
  cases h : s.err <;> simp [State.recordError, h]
@[simp] theorem State.recordError_position (s : State) (c : Cause) : (s.recordError c).position = s.position := by
  cases h : s.err <;> simp [State.recordError, h]
@[simp] theorem State.recordError_draws (s : State) (c : Cause) : (s.recordError c).draws = s.draws := by
  cases h : s.err <;> simp [State.recordError, h]

/-! ## The same machine with another host -/

/-- `s` with another host script, position and count of draws: the same machine. -/
def withHost (s : State) (prog : List HostMove) (pos n : Nat) : State :=
  { s with program := prog, position := pos, draws := n }

@[simp] theorem withHost_h (s : State) (prog : List HostMove) (pos n : Nat) :
    (withHost s prog pos n).h = s.h := by cases s; rfl
@[simp] theorem withHost_len (s : State) (prog : List HostMove) (pos n : Nat) :
    (withHost s prog pos n).len = s.len := by cases s; rfl
@[simp] theorem withHost_active (s : State) (prog : List HostMove) (pos n : Nat) :
    (withHost s prog pos n).active = s.active := by cases s; rfl
@[simp] theorem withHost_done (s : State) (prog : List HostMove) (pos n : Nat) :
    (withHost s prog pos n).done = s.done := by cases s; rfl
@[simp] theorem withHost_err (s : State) (prog : List HostMove) (pos n : Nat) :
    (withHost s prog pos n).err = s.err := by cases s; rfl
@[simp] theorem withHost_ecause (s : State) (prog : List HostMove) (pos n : Nat) :
    (withHost s prog pos n).ecause = s.ecause := by cases s; rfl
@[simp] theorem withHost_inFlight (s : State) (prog : List HostMove) (pos n : Nat) :
    (withHost s prog pos n).inFlight = s.inFlight := by cases s; rfl
@[simp] theorem withHost_justReset (s : State) (prog : List HostMove) (pos n : Nat) :
    (withHost s prog pos n).justReset = s.justReset := by cases s; rfl
@[simp] theorem withHost_program (s : State) (prog : List HostMove) (pos n : Nat) :
    (withHost s prog pos n).program = prog := by cases s; rfl
@[simp] theorem withHost_position (s : State) (prog : List HostMove) (pos n : Nat) :
    (withHost s prog pos n).position = pos := by cases s; rfl
@[simp] theorem withHost_draws (s : State) (prog : List HostMove) (pos n : Nat) :
    (withHost s prog pos n).draws = n := by cases s; rfl

/-! ## The reset cycle -/

/-- Outside the reset cycle there is nothing to leave. -/
theorem State.leaveReset_eq {s : State} (h : s.justReset = false) : s.leaveReset = s := by
  ext1 <;> simp [h]

/-! ## BUSY -/

@[simp] theorem State.busy_eq_false (s : State) : s.busy = false ↔ s.inFlight = none := by
  simp [State.busy]

theorem State.busy_eq_true (s : State) : s.busy = true ↔ ∃ f, s.inFlight = some f := by
  simp [State.busy, Option.isSome_iff_exists]

/-- The whole record left by recording an error. -/
theorem State.recordError_eq (s : State) (c : Cause) :
    s.recordError c = { s with err := true, ecause := if s.err then s.ecause else c.code } := by
  cases s with
  | mk h len active done err ecause inFlight justReset program position draws => cases err <;> rfl

end Sys2Proof.Machine
end

