-- ==== Sys2Proof/Laws/Ops.lean ====
section
/-! SUPPORT. What each shared operation answers, once: later proofs cite these instead of unfolding. -/

namespace Sys2Proof.Machine

/-- Taking the exception, whole (R152). -/
theorem raiseIllegal_eq (c : Cause) (s : State) :
    raiseIllegal c s =
      .next { s with err := true, ecause := if s.err then s.ecause else c.code, inFlight := none } := by
  simp [raiseIllegal, State.recordError_eq, State.finish]

theorem completeActive_of_active {s : State} (t : State) (h : s.active = true) :
    completeActive s t = .next t.finish := by
  simp [completeActive, completeWith, h]

theorem completeActive_of_not_active {s : State} (t : State) (h : s.active = false) :
    completeActive s t = raiseIllegal .notActive s := by
  simp [completeActive, h]

/-- The meaning of a legal command, whole: the state it leaves (R80, R95, R116). -/
def legalResult : Instr → State → State
  | .init seed, s => (((s.writeH seed).writeLen 0#32).writeSession true false).finish
  | .block k, s => ((s.writeH (blockMix s.h k)).writeLen (s.len + 4#32)).finish
  | .final t d, s => (((s.writeH (finalDigest s.h s.len t d)).writeLen (finalLen s.len t)).writeSession false true).finish

/-- The fields a legal command leaves (R80, R95, R116). -/
@[simp] theorem legalResult_init (seed : Word) (s : State) :
    legalResult (.init seed) s =
      { s with h := seed, len := 0#32, active := true, done := false, inFlight := none } := by
  ext1 <;> simp [legalResult]

@[simp] theorem legalResult_block (k : Word) (s : State) :
    legalResult (.block k) s = { s with h := blockMix s.h k, len := s.len + 4#32, inFlight := none } := by
  ext1 <;> simp [legalResult]

@[simp] theorem legalResult_final (t : BitVec 2) (d : Word) (s : State) :
    legalResult (.final t d) s =
      { s with h := finalDigest s.h s.len t d, len := finalLen s.len t, active := false, done := true,
               inFlight := none } := by
  ext1 <;> simp [legalResult]

theorem legalResult_withHost (i : Instr) (s : State) (prog : List HostMove) (pos n : Nat) :
    legalResult i (withHost s prog pos n) = withHost (legalResult i s) prog pos n := by
  cases i <;> ext1 <;> simp

theorem execInit_eq (seed : Word) (s : State) : execInit seed s = .next (legalResult (.init seed) s) := rfl

theorem execBlock_of_active (k : Word) {s : State} (h : s.active = true) :
    execBlock k s = .next (legalResult (.block k) s) :=
  completeActive_of_active _ h

theorem execFinal_of_active (t : BitVec 2) (d : Word) {s : State} (h : s.active = true) :
    execFinal t d s = .next (legalResult (.final t d) s) :=
  completeActive_of_active _ h

/-- What an accepted word does when it completes: its effect, or the exception (R44, R150 to R152). -/
theorem completeWord_cases (w : CmdWord) (s : State) :
    (∃ c, illegalCause w s = some c ∧ completeWord w s = raiseIllegal c s) ∨
    (∃ i, illegalCause w s = none ∧ decode w = .ok i ∧ (needsSession i = true → s.active = true) ∧
      completeWord w s = .next (legalResult i s)) := by
  cases hd : decode w with
  | error e => exact .inl ⟨causeOfDecodeError e, by simp [illegalCause, hd], by simp [completeWord, hd]⟩
  | ok i =>
    cases i with
    | init seed =>
      exact .inr ⟨.init seed, by simp [illegalCause, hd, needsSession], rfl, by simp [needsSession],
        by simp [completeWord, hd, exec, execInit_eq]⟩
    | block k =>
      cases ha : s.active with
      | true =>
        exact .inr ⟨.block k, by simp [illegalCause, hd, ha], rfl, fun _ => rfl,
          by simp [completeWord, hd, exec, execBlock_of_active k ha]⟩
      | false =>
        exact .inl ⟨.notActive, by simp [illegalCause, hd, needsSession, ha],
          by simp [completeWord, hd, exec, execBlock, completeActive_of_not_active _ ha]⟩
    | final t d =>
      cases ha : s.active with
      | true =>
        exact .inr ⟨.final t d, by simp [illegalCause, hd, ha], rfl, fun _ => rfl,
          by simp [completeWord, hd, exec, execFinal_of_active t d ha]⟩
      | false =>
        exact .inl ⟨.notActive, by simp [illegalCause, hd, needsSession, ha],
          by simp [completeWord, hd, exec, execFinal, completeActive_of_not_active _ ha]⟩

/-- The state a word's completion leaves. -/
def afterWord (w : CmdWord) (s : State) : State :=
  match illegalCause w s, decode w with
  | some c, _ => { s with err := true, ecause := if s.err then s.ecause else c.code, inFlight := none }
  | none, .ok i => legalResult i s
  | none, .error _ => s.finish

theorem afterWord_of_illegal {w : CmdWord} {s : State} {c : Cause} (h : illegalCause w s = some c) :
    afterWord w s = { s with err := true, ecause := if s.err then s.ecause else c.code, inFlight := none } := by
  simp [afterWord, h]

theorem afterWord_of_legal {w : CmdWord} {s : State} {i : Instr} (h : illegalCause w s = none)
    (hd : decode w = .ok i) : afterWord w s = legalResult i s := by
  simp [afterWord, h, hd]

theorem illegalCause_of_error {w : CmdWord} {e : DecodeError} (s : State) (h : decode w = .error e) :
    illegalCause w s = some (causeOfDecodeError e) := by
  simp [illegalCause, h]

theorem illegalCause_of_ok {w : CmdWord} {i : Instr} (s : State) (h : decode w = .ok i) :
    illegalCause w s = if needsSession i && !s.active then some .notActive else none := by
  simp [illegalCause, h]

/-- A word is legal at a state exactly when it decodes to a command whose session is open if it needs one. -/
theorem legal_iff (w : CmdWord) (s : State) :
    illegalCause w s = none ↔ ∃ i, decode w = .ok i ∧ (needsSession i = true → s.active = true) := by
  cases hd : decode w with
  | error e => simp [illegalCause, hd]
  | ok i => cases hn : needsSession i <;> simp [illegalCause, hd, hn]

/-- A completion always answers a next state. -/
theorem completeWord_eq (w : CmdWord) (s : State) : completeWord w s = .next (afterWord w s) := by
  rcases completeWord_cases w s with ⟨c, hc, h⟩ | ⟨i, hc, hd, -, h⟩
  · rw [h, raiseIllegal_eq]; simp [afterWord, hc]
  · rw [h]; simp [afterWord, hc, hd]

theorem legalLatency_bounds (i : Instr) : 1 ≤ legalLatency i ∧ legalLatency i ≤ Config.latMax := by
  cases i <;> exact ⟨Config.latencyFrom_pos _, Config.latencyFrom_le _⟩

/-- Every latency is in `1..LAT_MAX` (R44). -/
theorem latencyOf_bounds (w : CmdWord) (s : State) : 1 ≤ latencyOf w s ∧ latencyOf w s ≤ Config.latMax := by
  unfold latencyOf
  split
  · exact legalLatency_bounds _
  · exact ⟨Config.latencyFrom_pos _, Config.latencyFrom_le _⟩

/-- The legality of a word depends on `ACTIVE` alone. -/
theorem illegalCause_congr (w : CmdWord) {s t : State} (h : s.active = t.active) :
    illegalCause w s = illegalCause w t := by
  simp [illegalCause, h]

theorem latencyOf_congr (w : CmdWord) {s t : State} (h : s.active = t.active) : latencyOf w s = latencyOf w t := by
  simp [latencyOf, illegalCause_congr w h]

@[simp] theorem illegalCause_leaveReset (w : CmdWord) (s : State) :
    illegalCause w s.leaveReset = illegalCause w s :=
  illegalCause_congr w (State.leaveReset_active s)

@[simp] theorem latencyOf_leaveReset (w : CmdWord) (s : State) : latencyOf w s.leaveReset = latencyOf w s :=
  latencyOf_congr w (State.leaveReset_active s)

@[simp] theorem legalResult_inFlight (i : Instr) (s : State) : (legalResult i s).inFlight = none := by
  cases i <;> rfl

@[simp] theorem afterWord_inFlight (w : CmdWord) (s : State) : (afterWord w s).inFlight = none := by
  unfold afterWord
  split
  · rfl
  · exact legalResult_inFlight _ _
  · rfl

@[simp] theorem legalResult_justReset (i : Instr) (s : State) : (legalResult i s).justReset = s.justReset := by
  cases i <;> simp

@[simp] theorem afterWord_justReset (w : CmdWord) (s : State) : (afterWord w s).justReset = s.justReset := by
  unfold afterWord
  split
  · rfl
  · exact legalResult_justReset _ _
  · rfl

theorem legalResult_flight (i : Instr) (s : State) (f : Option InFlight) :
    legalResult i { s with inFlight := f } = legalResult i s := by
  cases i <;> rfl

theorem legalResult_host (i : Instr) (s : State) :
    (legalResult i s).program = s.program ∧ (legalResult i s).position = s.position ∧
      (legalResult i s).draws = s.draws := by
  cases i <;> simp [legalResult]

/-- What a completion leaves does not depend on how far the command in flight has come. -/
theorem afterWord_flight (w : CmdWord) (s : State) (f : Option InFlight) :
    afterWord w { s with inFlight := f } = afterWord w s := by
  simp only [afterWord, illegalCause_congr w (show ({ s with inFlight := f } : State).active = s.active from rfl)]
  split
  · rfl
  · exact legalResult_flight _ _ _
  · rfl

theorem legalResult_leaveReset (i : Instr) (s : State) :
    legalResult i s.leaveReset = (legalResult i s).leaveReset := by
  cases i <;> ext1 <;> simp

/-- What a completion leaves does not depend on whether the reset cycle is over. -/
@[simp] theorem afterWord_leaveReset (w : CmdWord) (s : State) : afterWord w s.leaveReset = (afterWord w s).leaveReset := by
  simp only [afterWord, illegalCause_congr w (State.leaveReset_active s)]
  split
  · rfl
  · exact legalResult_leaveReset _ _
  · rfl

/-- A completion leaves the host and the draw count alone. -/
theorem afterWord_host (w : CmdWord) (s : State) :
    (afterWord w s).program = s.program ∧ (afterWord w s).position = s.position ∧ (afterWord w s).draws = s.draws := by
  unfold afterWord
  split
  · exact ⟨rfl, rfl, rfl⟩
  · exact legalResult_host _ _
  · exact ⟨rfl, rfl, rfl⟩

end Sys2Proof.Machine
end

