-- ==== Sys2Proof/Laws/PerInstr.lean ====
section
/-! SUPPORT. Statements made of every command as syntax, one lemma per constructor. -/

namespace Sys2Proof.Laws.EncodedForm

/-- The word of a command has `RSVD = 0` (R65), and `TLEN = 0` outside FINAL (R64). -/
def Statement (i : Instr) : Prop :=
  rsvdField (encode i) = 0#26 ∧ (opField (encode i) ≠ opFinal → tlenField (encode i) = 0#2)

theorem init (seed : Word) : Statement (.init seed) := by
  simp [Statement, encode]

theorem block (k : Word) : Statement (.block k) := by
  simp [Statement, encode]

theorem final (t : BitVec 2) (d : Word) : Statement (.final t d) := by
  simp [Statement, encode]

end Sys2Proof.Laws.EncodedForm
end

