-- ==== Sys2Proof/Laws/Step.lean ====
section
/-! SUPPORT. Once, everything a step, an edge and a run of edges can do; nothing of the machine depends on the host's
script or on the count of draws. -/

namespace Sys2Proof.Machine

/-- What a host move leaves. -/
def afterMove : HostMove → State → State
  | .present w, s => afterWord w (s.accept w)
  | .reset, s => s.resetBlock
  | .resetDuring w, s => (s.accept w).resetBlock

theorem runMove_eq (m : HostMove) (s : State) : runMove m s = .next (afterMove m s) := by
  cases m with
  | present w => exact completeWord_eq w _
  | reset => rfl
  | resetDuring w => rfl

/-- With a command in flight the step completes it (R44). -/
theorem step_of_inFlight {s : State} {f : InFlight} (hf : s.inFlight = some f) :
    step s = completeWord f.word s.leaveReset := by
  simp [step, stepState, nextEvent, hf]

/-- With nothing in flight the step makes the host's next move (R190). -/
theorem step_of_move {s : State} {m : HostMove} (hf : s.inFlight = none) (hm : nextMove s = some m) :
    step s = runMove m s.leaveReset.advance := by
  simp [step, stepState, nextEvent, hf, show nextMove s.leaveReset = some m from hm]

/-- With nothing in flight and no move left the block waits (R145, R161). -/
theorem step_of_no_move {s : State} (hf : s.inFlight = none) (hm : nextMove s = none) : step s = .next s.leaveReset := by
  simp [step, stepState, nextEvent, hf, show nextMove s.leaveReset = none from hm]

/-- The step, by what the host and the block are doing. -/
theorem step_cases (s : State) :
    (∃ f, s.inFlight = some f ∧ step s = .next (afterWord f.word s.leaveReset)) ∨
    (∃ m, s.inFlight = none ∧ nextMove s = some m ∧ step s = .next (afterMove m s.leaveReset.advance)) ∨
    (s.inFlight = none ∧ nextMove s = none ∧ step s = .next s.leaveReset) := by
  cases hf : s.inFlight with
  | some f => exact .inl ⟨f, rfl, by rw [step_of_inFlight hf, completeWord_eq]⟩
  | none =>
    cases hm : nextMove s with
    | some m => exact .inr (.inl ⟨m, rfl, rfl, by rw [step_of_move hf hm, runMove_eq]⟩)
    | none => exact .inr (.inr ⟨rfl, rfl, step_of_no_move hf hm⟩)

/-- An edge, by the pins and what the block is doing: reset, completion, a flight going on, acceptance, idling. -/
theorem edge_cases (p : Pins) (s : State) :
    (p.rst = true ∧ edge p s = .next s.resetBlock) ∨
    (∃ f, p.rst = false ∧ s.inFlight = some f ∧ f.left ≤ 1 ∧
      edge p s = .next (afterWord f.word s.leaveReset)) ∨
    (∃ f, p.rst = false ∧ s.inFlight = some f ∧ 1 < f.left ∧
      edge p s = .next { s.leaveReset with inFlight := some ⟨f.word, f.left - 1⟩ }) ∨
    (p.rst = false ∧ s.inFlight = none ∧ p.cmdValid = true ∧ 
      edge p s = .next (s.leaveReset.accept p.cmdWord)) ∨
    (p.rst = false ∧ s.inFlight = none ∧ p.cmdValid = false ∧ edge p s = .next s.leaveReset) := by
  cases hr : p.rst with
  | true => exact .inl ⟨rfl, by simp [edge, hr]⟩
  | false =>
    cases hf : s.inFlight with
    | some f =>
      by_cases hl : f.left ≤ 1
      · exact .inr (.inl ⟨f, rfl, rfl, hl, by simp [edge, runningEdge, hr, hf, flightEdge, hl, completeWord_eq]⟩)
      · exact .inr (.inr (.inl ⟨f, rfl, rfl, by omega,
          by simp [edge, runningEdge, hr, hf, flightEdge, hl]⟩))
    | none =>
      cases hv : p.cmdValid with
      | true =>
        exact .inr (.inr (.inr (.inl ⟨rfl, rfl, rfl,
          by simp [edge, runningEdge, hr, hf, accepted, hv, cmdReady, State.busy]⟩)))
      | false =>
        exact .inr (.inr (.inr (.inr ⟨rfl, rfl, rfl, by simp [edge, runningEdge, hr, hf, accepted, hv]⟩)))

/-- An edge without reset while a command is in flight, by how many edges it has left. -/
theorem edge_inFlight {p : Pins} {s : State} {f : InFlight} (hr : p.rst = false) (hf : s.inFlight = some f) :
    edge p s = if f.left ≤ 1 then .next (afterWord f.word s.leaveReset)
      else .next { s.leaveReset with inFlight := some ⟨f.word, f.left - 1⟩ } := by
  by_cases hl : f.left ≤ 1 <;> simp [edge, runningEdge, hr, hf, flightEdge, hl, completeWord_eq]

@[simp] theorem runEdges_nil (s : State) : runEdges [] s = .next s := rfl

theorem runEdges_cons_next {p : Pins} {s t : State} (h : edge p s = .next t) (ps : List Pins) :
    runEdges (p :: ps) s = runEdges ps t := by
  simp [runEdges, h]

/-- A run goes on from where its first part ends. -/
theorem runEdges_append {ps : List Pins} {s t : State} (h : runEdges ps s = .next t) (qs : List Pins) :
    runEdges (ps ++ qs) s = runEdges qs t := by
  induction ps generalizing s with
  | nil =>
    simp only [runEdges_nil, Host.Outcome.next.injEq] at h
    simp [h]
  | cons p ps ih =>
    simp only [List.cons_append, runEdges] at h ⊢
    cases he : edge p s with
    | next u => simp only [he] at h ⊢; exact ih h
    | fault r => simp [he] at h
    | refused r => simp [he] at h

/-- A command with more edges left than are run is still in flight, and nothing else has changed (R44). The accepting edge
has ended the reset cycle. -/
theorem runEdges_flight (w : CmdWord) (n : Nat) (qs : List Pins) (s : State) (hw : s.justReset = false)
    (hr : ∀ q ∈ qs, q.rst = false) (hl : qs.length < n) :
    runEdges qs { s with inFlight := some ⟨w, n⟩ } = .next { s with inFlight := some ⟨w, n - qs.length⟩ } := by
  induction qs generalizing n with
  | nil => rfl
  | cons q qs ih =>
    simp only [List.length_cons] at hl
    have he : edge q { s with inFlight := some ⟨w, n⟩ } = .next { s with inFlight := some ⟨w, n - 1⟩ } := by
      rw [edge_inFlight (f := ⟨w, n⟩) (hr q (by simp)) rfl, if_neg (by simp; omega)]
      rw [State.leaveReset_eq (s := { s with inFlight := some ⟨w, n⟩ }) hw]
    rw [runEdges_cons_next he, ih (n - 1) (fun p hp => hr p (by simp [hp])) (by omega)]
    simp only [List.length_cons]
    congr 4
    omega

/-- A command completes at the last of its edges (R44, R189). -/
theorem runEdges_complete (w : CmdWord) (n : Nat) (qs : List Pins) (s : State) (hw : s.justReset = false)
    (hr : ∀ q ∈ qs, q.rst = false) (hn : 1 ≤ n) (hl : qs.length = n) :
    runEdges qs { s with inFlight := some ⟨w, n⟩ } = .next (afterWord w s) := by
  have hne : qs ≠ [] := by rintro rfl; simp at hl; omega
  have hd := List.dropLast_concat_getLast hne
  have hlen : qs.dropLast.length = n - 1 := by simp [hl]
  have h1 := runEdges_flight w n qs.dropLast s hw (fun q hq => hr q (List.mem_of_mem_dropLast hq)) (by omega)
  rw [← hd, runEdges_append h1, hlen]
  have he : edge (qs.getLast hne) { s with inFlight := some ⟨w, n - (n - 1)⟩ } = .next (afterWord w s) := by
    rw [edge_inFlight (f := ⟨w, n - (n - 1)⟩) (hr _ (List.getLast_mem hne)) rfl, if_pos (by simp; omega)]
    rw [State.leaveReset_eq (s := { s with inFlight := some ⟨w, n - (n - 1)⟩ }) hw, afterWord_flight]
  rw [runEdges_cons_next he]
  rfl

/-- The state a completion leaves is computed without looking at the host or the draws. -/
theorem afterWord_withHost (w : CmdWord) (s : State) (prog : List HostMove) (pos n : Nat) :
    afterWord w (withHost s prog pos n) = withHost (afterWord w s) prog pos n := by
  have hc : illegalCause w (withHost s prog pos n) = illegalCause w s := illegalCause_congr w rfl
  cases h : illegalCause w s with
  | some c =>
    rw [afterWord_of_illegal h, afterWord_of_illegal (hc.trans h)]
    ext1 <;> simp
  | none =>
    obtain ⟨i, hd, -⟩ := (legal_iff w s).mp h
    rw [afterWord_of_legal h hd, afterWord_of_legal (hc.trans h) hd, legalResult_withHost]

/-! ## What the outputs show (R45) -/

theorem sampleOutputs_quiescent {s : State} (hb : s.busy = false) (hw : s.justReset = false) :
    sampleOutputs false s = (⟨true, s.h, s.len, statusWord s⟩, s) := by
  simp [sampleOutputs, inResetCycle, cmdReady, hb, hw]

theorem sampleOutputs_busy {s : State} (hb : s.busy = true) (hw : s.justReset = false) :
    sampleOutputs false s = (⟨false, drawn s 0, drawn s 1, busyStatus (drawn s 2)⟩, s.draw 3) := by
  simp [sampleOutputs, inResetCycle, cmdReady, hb, hw]

theorem sampleOutputs_resetCycle {rst : Bool} {s : State} (h : rst = true ∨ s.justReset = true) :
    sampleOutputs rst s = (⟨cmdReady rst s, drawn s 0, drawn s 1, drawn s 2⟩, s.draw 3) := by
  have : inResetCycle rst s = true := by simpa [inResetCycle] using h
  simp [sampleOutputs, this]

end Sys2Proof.Machine
end

