-- ==== Sys2Proof/Tests/Slice0.lean ====
section
/-! SUPPORT. Tests with expected values from the spec (95_test_vectors.md unless another file is named), the smoke tests of
the well-formedness checks, and a witness for the hypotheses of each statement. -/

namespace Sys2Proof.Tests

open Sys2Proof.Machine

/-- The next state of an outcome. -/
def nextOf {σ : Type} : Host.Outcome σ Fault Refusal → Option σ
  | .next t => some t
  | _ => none

/-- What 95_test_vectors.md lists of a state: `H`, `LEN`, `ACTIVE`, `DONE`, `ERR`, `ECAUSE`. -/
def view (s : State) : Word × Word × Bool × Bool × Bool × BitVec 2 := (s.h, s.len, s.active, s.done, s.err, s.ecause)

/-- The view after an outcome. -/
def viewOf (o : Host.Outcome State Fault Refusal) : Option (Word × Word × Bool × Bool × Bool × BitVec 2) :=
  (nextOf o).map view

/-- A quiescent state with an open session. -/
def openAt (h len : Word) : State := { State.reset with justReset := false, h := h, len := len, active := true }

/-- A state after a FINAL. -/
def closedAt (h len : Word) : State := { State.reset with justReset := false, h := h, len := len, done := true }

/-- An open session with word `w` in flight, `n` edges from its completion. -/
def flying (w : CmdWord) (n : Nat) : State := { openAt 0#32 0#32 with inFlight := some ⟨w, n⟩ }

/-- A quiescent state whose host presents `ws`. -/
def hosting (s : State) (ms : List HostMove) : State := { s with program := ms }

/-- The pins of an edge with reset, of an idle edge, and of one that presents `w`. -/
def resetPins : Pins := ⟨true, false, 0#64⟩
def idlePins : Pins := ⟨false, false, 0#64⟩
def presentPins (w : CmdWord) : Pins := ⟨false, true, w⟩

/-! ## Well-formedness: each check refuses -/

theorem test_wellFormed_words :
    [0x0000232900000001#64, 0x7473657400000002#64, 0xFFFFFFFF00000033#64].all wordWellFormed = true := by decide
theorem test_wellFormed_refuses_opcode : wordWellFormed 0x0000000000000005#64 = false := by decide
theorem test_wellFormed_refuses_rsvd : wordWellFormed 0x0000000000000043#64 = false := by decide
theorem test_wellFormed_refuses_tlen : wordWellFormed 0x0000000000000012#64 = false := by decide
theorem test_wellFormed_commands :
    [Instr.init 0xFFFFFFFF#32, .block 0#32, .final 3#2 0xFFFFFFFF#32].all Instr.wellFormed = true := by decide
theorem test_asm_refuses_imm32 :
    (Asm.init (2 ^ 32)).wellFormed = false ∧ (Asm.block (2 ^ 32)).wellFormed = false ∧ (Asm.final 1 (some (2 ^
    32))).wellFormed = false := by decide
theorem test_asm_refuses_tail_length : (Asm.final 4 none).wellFormed = false := by decide
theorem test_asm_refuses_imm64 : (Asm.word64 (2 ^ 64)).wellFormed = false := by decide
theorem test_asm_refuses_byte :
    (Asm.blockB 0 0 0 256).wellFormed = false ∧ (Asm.finalB [256]).wellFormed = false := by decide
theorem test_asm_refuses_four_tail_bytes : (Asm.finalB [1, 2, 3, 4]).wellFormed = false := by decide
theorem test_asm_refuses_hashBuf :
    (AsmLine.hashBuf (2 ^ 32) 0 0).wellFormed [] = false ∧ (AsmLine.hashBuf 0 1 1).wellFormed [0#8] = false :=
  by decide

/-! ## Decoding: words written out from R60 and R61, bit by bit -/

/-- `DATA = 0x2329`, `RSVD = 0`, `TLEN = 0`, `OP = 0001`. -/
theorem test_decode_init :
    decode 0b0000000000000000001000110010100100000000000000000000000000000001#64 = .ok (.init 0x2329#32) :=
  by decide
/-- `DATA = 0x74736574`, `RSVD = 0`, `TLEN = 0`, `OP = 0010`. -/
theorem test_decode_block :
    decode 0b0111010001110011011001010111010000000000000000000000000000000010#64 = .ok (.block 0x74736574#32) :=
  by decide
/-- `DATA = 0x21`, `RSVD = 0`, `TLEN = 01`, `OP = 0011`. -/
theorem test_decode_final :
    decode 0b0000000000000000000000000010000100000000000000000000000000010011#64 = .ok (.final 1#2 0x21#32) :=
  by decide
/-- section 2.8: the causes of reserved words, the opcode first -/
theorem test_decode_reserved_opcode :
    [0x0000000000000000#64, 0x0000000000000045#64, 0x0000000100000004#64, 0xFFFFFFFFFFFFFFFF#64].all (fun w =>
    decide (illegalCause w State.reset = some .reservedOpcode)) = true := by decide
theorem test_decode_reserved_field :
    [0x0000000000000042#64, 0x0000000000000012#64, 0x0000000000000011#64, 0x0000000080000001#64,
    0x00000000000000F3#64].all (fun w => decide (illegalCause w State.reset = some .reservedField)) = true :=
  by decide
theorem test_not_active_from_reset :
    [0x0000000000000002#64, 0x0000000000000033#64].all (fun w => decide (illegalCause w State.reset = some
    .notActive)) = true := by decide
theorem test_decodeTableWord :
    decodeTableWord 64 0x0000002100000013 = some (.final 1#2 0x21#32) ∧ decodeTableWord 64 0x12 = none := by decide

/-! ## The datapath -/

/-- section 2.2, row 5 -/
theorem test_kmix : kmix 0x9ABCDEF0#32 = 0x75C3ABAB#32 := by decide
theorem test_blockMix : blockMix 0x12345678#32 0x9ABCDEF0#32 = 0xE4F88C5A#32 := by decide
/-- section 2.4 -/
theorem test_packTail :
    packTail 0xDDCCBBAA#32 3#2 = 0x00CCBBAA#32 ∧ packTail 0xDDCCBBAA#32 2#2 = 0x0000BBAA#32 := by decide
theorem test_tailMix :
    tailMix 0x5A5A5A5A#32 0xFFFFFFFF#32 3#2 = 0xC5B22BCA#32 ∧ tailMix 0#32 0xDDCCBBAA#32 0#2 = 0#32 := by decide
/-- section 2.5, row 6 -/
theorem test_fmix32 : fmix32 0x12345678#32 = 0xE37CD1BC#32 := by decide
/-- section 1.2: `hash(0, "test")` and `hash(0, 21 43 65)` -/
theorem test_murmur3_test : murmur3 0#32 [0x74#8, 0x65#8, 0x73#8, 0x74#8] = 0xBA6BD213#32 := by decide
theorem test_murmur3_tail : murmur3 0#32 [0x21#8, 0x43#8, 0x65#8] = 0x7E4A8634#32 := by decide

/-! ## The commands, one step each -/

/-- section 2.1, rows 4 and 5 -/
theorem test_init :
    viewOf (exec (.init 0x2329#32) (closedAt 0xBA6BD213#32 4#32)) = some (0x2329#32, 0#32, true, false, false, 0#2) :=
  by decide
theorem test_init_keeps_error :
    viewOf (exec (.init 0#32) { State.reset with err := true, ecause := 3#2 }) = some (0#32, 0#32, true, false,
    true, 3#2) := by decide
/-- section 2.3, row 2 (`LEN` wraps) and row 6 -/
theorem test_block_wraps :
    viewOf (exec (.block 0#32) (openAt 0#32 0xFFFFFFFC#32)) = some (0xE6546B64#32, 0#32, true, false, false, 0#2) :=
  by decide
theorem test_block_not_active :
    viewOf (exec (.block 0#32) (closedAt 1#32 8#32)) = some (1#32, 8#32, false, true, true, 3#2) := by decide
/-- section 2.6, rows 3 and 6 (`LEN` wraps) -/
theorem test_final :
    viewOf (exec (.final 1#2 0x21#32) (openAt 0xAB7A9CC9#32 12#32)) = some (0xA92AB3CB#32, 13#32, false, true,
    false, 0#2) := by decide
theorem test_final_wraps :
    viewOf (exec (.final 3#2 0x00654321#32) (openAt 0#32 0xFFFFFFFE#32)) = some (0x64F15191#32, 1#32, false, true,
    false, 0#2) := by decide

/-! ## The step -/

theorem test_step_runs_placed_word :
    viewOf (step (State.reset.withFetchWord 64 0x0000232900000001)) = some (0x2329#32, 0#32, true, false, false,
    0#2) := by decide
/-- P5: the first cause is kept -/
theorem test_step_keeps_first_cause :
    viewOf (step ({ openAt 7#32 0#32 with err := true, ecause := 1#2 }.withFetchWord 64 0x0000000500000012)) = some
    (7#32, 0#32, true, false, true, 1#2) := by decide
theorem test_step_idle : step (openAt 7#32 4#32) = .next (openAt 7#32 4#32) := rfl
/-- section 2.9, row 1: a reset abandons the BLOCK in flight -/
theorem test_resetDuring :
    viewOf (step (hosting (openAt 7#32 8#32) [.resetDuring 0x0000000000000002#64])) = some (0#32, 0#32, false,
    false, false, 0#2) := by decide

/-! ## The clock and the outputs -/

/-- A BLOCK with two edges left writes nothing at the next edge and completes at the one after (R44, R95). -/
theorem test_edge_before_completion :
    nextOf (edge idlePins (flying 0x7473657400000002#64 2)) = some (flying 0x7473657400000002#64 1) := by decide
theorem test_edge_completion :
    viewOf (edge idlePins (flying 0x7473657400000002#64 1)) = some (0x7985975B#32, 4#32, true, false, false, 0#2) :=
  by decide
/-- section 2.9, row 1: reset wins at the completing edge -/
theorem test_edge_reset_wins :
    viewOf (edge resetPins (flying 0x7473657400000002#64 1)) = some (0#32, 0#32, false, false, false, 0#2) :=
  by decide
/-- R23: `ACTIVE` is bit 1, `ERR` bit 3, `ECAUSE` bits 5:4 -/
theorem test_status : statusWord { openAt 0#32 0#32 with err := true, ecause := 2#2 } = 0x2A#32 := by decide
theorem test_outputs_quiescent :
    (sampleOutputs false (closedAt 0xBA6BD213#32 4#32)).1 = ⟨true, 0xBA6BD213#32, 4#32, 4#32⟩ := by decide
/-- R45: the read at the first edge after a reset edge is unspecified, the one at the next edge shows the reset state -/
theorem test_outputs_after_reset :
    (sampleOutputs false State.reset).1.hOut = Config.freeOut 0 ∧
    (nextOf (edge idlePins State.reset)).map (fun t => (sampleOutputs false t).1) = some ⟨true, 0#32, 0#32, 0#32⟩ :=
  ⟨rfl, by decide⟩
theorem test_ready_in_reset : (sampleOutputs true State.reset).1.cmdReady = false := by decide

/-! ## The assembler -/

/-- P2 -/
theorem test_hashBuf_words :
    assemble [0x74#8, 0x65#8, 0x73#8, 0x74#8] (.hashBuf 0 0 4) = some [0x0000000000000001#64, 0x7473657400000002#64,
    0x0000000000000003#64] := by decide
/-- section 2.7, `L = 7`, read from an odd byte offset -/
theorem test_hashBuf_unaligned :
    assemble [0#8, 1#8, 2#8, 3#8, 4#8, 5#8, 6#8, 7#8] (.hashBuf 0 1 7) = some [0x0000000000000001#64,
    0x0403020100000002#64, 0x0007060500000033#64] := by decide
theorem test_text_final :
    assembleText [] [] "FINAL 1, 0x21           ; word".toList = some [0x0000002100000013#64] := by decide
theorem test_text_init : assembleText [] [] "INIT  9001".toList = some [0x0000232900000001#64] := by decide
theorem test_text_blockB :
    assembleText [] [] "BLOCKB 0x74, 0x65, 0x73, 0x74".toList = some [0x7473657400000002#64] := by decide
theorem test_text_word64 :
    assembleText [] [] ".word64 0x0000000500000012".toList = some [0x0000000500000012#64] := by decide
/-- P2's own line, with the name it gives the buffer -/
theorem test_text_hashBuf :
    assembleText [("buf".toList, 0)] [0x74#8, 0x65#8, 0x73#8, 0x74#8] "HASHBUF 0, buf, 4      ; buf = 74 65 73 74".toList
    = some [0x0000000000000001#64, 0x7473657400000002#64, 0x0000000000000003#64] := by decide
theorem test_text_finalB : assembleText [] [] "FINALB".toList = some [0x0000000000000003#64] := by decide
theorem test_text_refuses :
    assembleText [] [] "INIT 0x100000000".toList = none ∧ assembleText [] [] "FINAL 4".toList = none ∧ assembleText [] []
    "BLOCK".toList = none := by decide

/-! ## Witnesses: each statement's hypotheses are met -/

theorem witness_EncodeOfDecode : decode 0x0000002100000013#64 = .ok (.final 1#2 0x21#32) := by decide
theorem witness_DecodeAgreesWithMatchMaskTable :
    ∃ r ∈ commandRows, r.holds 0x0000002100000013#64 = true :=
  ⟨⟨"FINAL", 0x00000000FFFFFFCF#64, 3#64⟩, by decide, by decide⟩
/-- one word for each clause, at the edge of its range -/
theorem witness_DecodeChecksInOrder :
    (0 % 16 ≠ 1 ∧ 0 % 16 ≠ 2 ∧ 0 % 16 ≠ 3) ∧ ((0x80000001 % 16 = 1) ∧ 0x80000001 / 64 % 2 ^ 26 ≠ 0) ∧ (0x12 % 16 = 2
    ∧ 0x12 / 64 % 2 ^ 26 = 0 ∧ 0x12 / 16 % 4 ≠ 0) ∧ (1 % 16 = 1 ∧ 1 / 64 % 2 ^ 26 = 0 ∧ 1 / 16 % 4 = 0) ∧ (2 % 16 =
    2 ∧ 2 / 64 % 2 ^ 26 = 0 ∧ 2 / 16 % 4 = 0) ∧ (0x33 % 16 = 3 ∧ 0x33 / 64 % 2 ^ 26 = 0) := by decide
theorem witness_DataFieldUse :
    decode 0x0000232900000001#64 = .ok (.init 0x2329#32) ∧ decode 0x7473657400000002#64 = .ok (.block 0x74736574#32)
    ∧ decode 0x0000002100000013#64 = .ok (.final 1#2 0x21#32) ∧ (openAt 0#32 0#32).active = true ∧
    (0xDDCCBBAA#32).toNat % 2 ^ (8 * (2#2).toNat) = (0x0000BBAA#32).toNat % 2 ^ (8 * (2#2).toNat) := by decide
theorem witness_DataFieldUse_next :
    (∃ t, exec (.init 7#32) State.reset = .next t) ∧ ∃ t, exec (.block 7#32) (openAt 0#32 0#32) = .next t :=
  ⟨⟨_, rfl⟩, ⟨_, rfl⟩⟩
theorem witness_BlockByteOrder : decode 0x7473657400000002#64 = .ok (.block 0x74736574#32) := by decide
theorem witness_TailByteOrder :
    decode 0x0065432100000033#64 = .ok (.final 3#2 0x00654321#32) ∧ 0 < (3#2).toNat ∧ 2 < (3#2).toNat := by decide
theorem witness_PackTailBytes : (0 < 4 ∧ 0 < (1#2).toNat) ∧ (3 < 4 ∧ ¬ 3 < (3#2).toNat) := by decide
theorem witness_TailMixIsBlockMixWithoutRound : (0#2 : BitVec 2) = 0#2 ∧ (3#2 : BitVec 2) ≠ 0#2 := by decide
theorem witness_BlockResult : (openAt 0x7985975B#32 4#32).active = true := by decide
theorem witness_FinalResult : (openAt 0x7985975B#32 4#32).active = true := by decide
theorem witness_NotActiveRaisesCauseThree :
    (closedAt 0xBA6BD213#32 4#32).active = false ∧ State.reset.active = false := by decide
theorem witness_CommandFrame :
    (∃ t, exec (.block 1#32) (openAt 0#32 0#32) = .next t) ∧ (∃ t, exec (.block 1#32) State.reset = .next t) ∧
    (needsSession (.init 1#32) = false) ∧ (openAt 0#32 0#32).active = true ∧ (needsSession (.block 1#32) = true ∧
    State.reset.active = false) :=
  ⟨⟨_, rfl⟩, ⟨_, rfl⟩, by decide, by decide, by decide⟩
theorem witness_RepeatedCommands :
    (∃ t, exec (.init 1#32) State.reset = .next t) ∧ ∃ t u v w, exec (.block 1#32) (openAt 0#32 0#32) = .next t ∧
    exec (.block 1#32) t = .next u ∧ exec (.final 0#2 0#32) (openAt 0#32 0#32) = .next v ∧ exec (.final 0#2 0#32) v
    = .next w :=
  ⟨⟨_, rfl⟩, _, _, _, _, rfl, rfl, rfl, rfl⟩
theorem witness_EmptyInputDigest :
    ∃ t u, exec (.init 0#32) State.reset = .next t ∧ exec (.final 0#2 0xFFFFFFFF#32) t = .next u :=
  ⟨_, _, rfl, rfl⟩
/-- a word of each kind at its completing edge, an edge before completion, and an edge with reset -/
theorem witness_Writers :
    (∃ t, edge resetPins (openAt 7#32 4#32) = .next t) ∧ (∀ w : CmdWord, ∃ t, edge idlePins (flying w 1) = .next t)
    ∧ (flying 0x0000000100000001#64 1).inFlight = some ⟨0x0000000100000001#64, 1⟩ ∧ decode 0x0000000100000001#64 =
    .ok (.init 1#32) ∧ decode 2#64 = .ok (.block 0#32) ∧ decode 0x33#64 = .ok (.final 3#2 0#32) ∧ decode 0#64 =
    .error .reservedOpcode ∧ (flying 2#64 1).active = true ∧ (∃ t, edge idlePins (flying 2#64 2) = .next t) ∧ 1 < 2 :=
  ⟨⟨_, rfl⟩, fun w => ⟨_, completeWord_eq w _⟩, rfl, by decide, by decide, by decide, by decide, by decide, ⟨_,
  rfl⟩, by decide⟩
theorem witness_Writers_outputs :
    (closedAt 7#32 4#32).busy = false ∧ (closedAt 7#32 4#32).justReset = false := by decide
theorem witness_WritersOfFlags :
    illegalCause 0#64 (flying 0#64 1) = some .reservedOpcode ∧ illegalCause 2#64 (flying 2#64 1) = none ∧ { flying
    2#64 1 with active := false }.active = false := by decide
theorem witness_ReadyExactlyWhenQuiescent : (flying 2#64 1).busy = true := by decide
theorem witness_AcceptanceSamplesTheWord :
    accepted (presentPins 2#64) State.reset = true ∧ (∃ t, edge (presentPins 2#64) State.reset = .next t) ∧ accepted
    idlePins State.reset = false ∧ idlePins.rst = false ∧ State.reset.busy = false ∧ (flying 2#64 2).busy = true ∧
    (presentPins 1#64).rst = idlePins.rst :=
  ⟨by decide, ⟨_, rfl⟩, by decide, by decide, by decide, by decide, by decide⟩
/-- runs of both lengths: none of the edges before completion, and all of them -/
theorem witness_CommandCompletesAtomically :
    accepted (presentPins 2#64) State.reset = true ∧ ([] : List Pins).length < latencyOf 2#64 State.reset ∧
    (List.replicate (latencyOf 2#64 State.reset) idlePins).length = latencyOf 2#64 State.reset ∧ (∀ q ∈
    List.replicate (latencyOf 2#64 State.reset) idlePins, q.rst = false) :=
  ⟨by decide, (latencyOf_bounds _ _).1, by simp, fun q hq => by rw [List.eq_of_mem_replicate hq]; rfl⟩
theorem witness_ClockedCommandRefinesStep :
    (hosting State.reset [.present 1#64]).busy = false ∧
    nextMove (hosting State.reset [.present 1#64]) = some (.present 1#64) ∧
    (∀ q ∈ List.replicate (latencyOf 1#64 (hosting State.reset [.present 1#64])) idlePins, q.rst = false) ∧
    (List.replicate (latencyOf 1#64 (hosting State.reset [.present 1#64])) idlePins).length =
      latencyOf 1#64 (hosting State.reset [.present 1#64]) :=
  ⟨by decide, by decide, fun q hq => by rw [List.eq_of_mem_replicate hq]; rfl, by simp⟩
theorem witness_KmixArithmetic : (1#2 : BitVec 2) ≠ 0#2 := by decide
theorem witness_ResetEdge :
    resetPins.rst = true ∧ (∃ t, edge resetPins { State.reset with err := true } = .next t ∧ t.err = false) :=
  ⟨by decide, _, rfl, by decide⟩
theorem witness_FirstEdgeAfterReset :
    resetPins.rst = true ∧ (∃ t, edge resetPins (flying 2#64 1) = .next t) ∧ (presentPins 1#64).rst = false ∧
    (presentPins 1#64).cmdValid = true :=
  ⟨by decide, ⟨_, rfl⟩, by decide, by decide⟩
theorem witness_IdleBlockHoldsItsState :
    (openAt 7#32 4#32).busy = false ∧ ∀ p ∈ [idlePins, idlePins], p.rst = false ∧ p.cmdValid = false := by decide
theorem witness_OutputsShow :
    (openAt 7#32 4#32).busy = false ∧ (openAt 7#32 4#32).justReset = false ∧ (flying 2#64 1).busy = true ∧ (flying 2#64
    1).justReset = false ∧ State.reset.justReset = true := by decide
theorem witness_ReadsHaveNoSideEffect :
    (∃ t, edge (presentPins 1#64) State.reset = .next t) ∧ (∃ t, step (hosting State.reset [.present 1#64]) = .next t) ∧
    (openAt 7#32 4#32).busy = false ∧ (openAt 7#32 4#32).justReset = false :=
  ⟨⟨_, rfl⟩, ⟨_, rfl⟩, by decide, by decide⟩
theorem witness_LatencyByCommand :
    decode 1#64 = .ok (.init 0#32) ∧ decode 2#64 = .ok (.block 0#32) ∧ decode 3#64 = .ok (.final 0#2 0#32) ∧ (openAt
    0#32 0#32).active = true ∧ illegalCause 2#64 State.reset = some .notActive := by decide
theorem witness_IllegalCommandRecordsOnly :
    illegalCause 0x43#64 (openAt 0#32 0#32) = some .reservedField ∧ illegalCause 3#64 (openAt 0#32 0#32) = none :=
  by decide
theorem witness_IllegalCauseTable :
    illegalCause 0#64 State.reset = some .reservedOpcode ∧ illegalCause 0x80000001#64 State.reset = some
    .reservedField ∧ illegalCause 3#64 State.reset = some .notActive ∧ illegalCause 1#64 State.reset = none :=
  by decide
theorem witness_CommandsRunNormallyAfterError :
    illegalCause 3#64 (openAt 0#32 0#32) = none ∧ ∃ t, completeWord 3#64 (openAt 0#32 0#32) = .next t :=
  ⟨by decide, ⟨_, completeWord_eq _ _⟩⟩
theorem witness_StepRunsDecodedCommand :
    (hosting State.reset [.present 1#64]).inFlight = none ∧ (hosting State.reset [.present 1#64]).program[(hosting
    State.reset [.present 1#64]).position]? = some (.present 1#64) ∧ decode 1#64 = .ok (.init 0#32) := by decide
theorem witness_StepTakesExceptionOnReservedWord :
    (hosting State.reset [.present 0#64]).program[(hosting State.reset [.present 0#64]).position]? = some (.present
    0#64) ∧ decode 0#64 = .error .reservedOpcode ∧ decode 0x43#64 = .error .reservedField := by decide
theorem witness_StepOtherMoves :
    (flying 2#64 1).inFlight = some ⟨2#64, 1⟩ ∧ (hosting State.reset [.reset]).program[0]? = some .reset ∧ (hosting
    State.reset [.resetDuring 1#64]).program[0]? = some (.resetDuring 1#64) ∧ State.reset.program[0]? = none :=
  by decide
theorem witness_PlacedCommandRunsNext : decodeTableWord 64 0x33 = some (.final 3#2 0#32) := by decide
theorem witness_StepsKeepFlagInvariants :
    (openAt 7#32 8#32).FlagsInv ∧ (∃ t, step (hosting (openAt 7#32 8#32) [.present 1#64]) = .next t) ∧ ∃ t, edge
    idlePins (flying 1#64 1) = .next t :=
  ⟨by decide, ⟨_, rfl⟩, ⟨_, rfl⟩⟩
theorem witness_ReachableStatesAreSound : Reachable (State.reset.leaveReset.accept 1#64) := .edge (presentPins 1#64) .reset rfl
theorem witness_ReachableStatesAreSound_active :
    (openAt 7#32 8#32).active = true ∧ State.reset.err = false ∧ { State.reset with err := true }.err = true :=
  by decide
theorem witness_HashBufComputesMurmur3 :
    State.reset.busy = false ∧ 7 ≤ [0#8, 1#8, 2#8, 3#8, 4#8, 5#8, 6#8, 7#8].length - 1 ∧ 0 ≤ ([] : List Byte).length - 5 :=
  by decide
theorem witness_DigestIndependentOfEarlierState :
    State.reset.busy = false ∧ (openAt 7#32 8#32).busy = false ∧ 2 ≤ [1#8, 2#8].length - 0 ∧ 2 ≤ [0#8, 1#8,
    2#8].length - 1 ∧ ([1#8, 2#8].drop 0).take 2 = ([0#8, 1#8, 2#8].drop 1).take 2 := by decide
theorem witness_HashBufExpansion :
    7 ≤ [1#8, 2#8, 3#8, 4#8, 5#8, 6#8, 7#8].length - 0 ∧ 0 < 7 / 4 ∧ 2 < 7 % 4 ∧ ¬ 0 < 4 % 4 := by decide
theorem witness_RunFaultsExactlyWhenErrIsSet : State.reset.busy = false ∧ State.reset.err = false := by decide
theorem witness_ClockedProgramRefinesUntimedRun : (openAt 7#32 8#32).busy = false := by decide
theorem witness_ChainedRunsIterateTheDigest : State.reset.busy = false ∧ 2 ≤ [1#8, 2#8].length - 0 ∧ [1#8, 2#8].length - 1 < 2 ∧ 0 < 3 := by decide
theorem witness_AssemblerAcceptsAndRefuses :
    (∀ n, Asm.init 7 ≠ .word64 n) ∧ assemble [] (.cmd (.init 7)) = some [0x0000000700000001#64] ∧
    0x0000000700000001#64 ∈ [0x0000000700000001#64] :=
  ⟨fun _ h => (by cases h), by decide, by decide⟩
theorem witness_ChangedCommandIsNotAdmitted :
    nextOf (runEdges [idlePins] (flying 2#64 2)) = some (flying 2#64 1) ∧ (presentPins 1#64).cmdValid = true ∧ cmdReady
    (presentPins 1#64).rst (flying 2#64 1) = false ∧ cmdReady resetPins.rst State.reset = false ∧ idlePins.cmdValid = false
    ∧ (presentPins 3#64).cmdWord ≠ (presentPins 1#64).cmdWord ∧ hostHoldsCommand [presentPins 1#64] State.reset = true :=
  by decide
/-- a run of one edge changes nothing that waits -/
theorem witness_ChangedCommandIsNotAdmitted_held :
    ∀ (pre : List Pins) (p q : Pins) (post : List Pins) (t : State), [presentPins 1#64] = pre ++ p :: q :: post →
      runEdges pre State.reset = .next t → p.cmdValid = true → cmdReady p.rst t = false →
      q.cmdValid = true ∧ q.cmdWord = p.cmdWord := by
  intro pre p q post t h
  have := congrArg List.length h
  simp at this
  omega
theorem witness_BlocksShareNoState :
    [State.reset, openAt 7#32 8#32][1]? = some (openAt 7#32 8#32) ∧ (0 : Nat) ≠ 1 := by decide

theorem witness_EdgeFrame :
    (∃ t, edge resetPins (flying 2#64 1) = .next t) ∧ ∃ t, edge idlePins (flying 2#64 1) = .next t := ⟨⟨_, rfl⟩, ⟨_, rfl⟩⟩
/-- reset, then an idle edge; and a reachable state in the reset cycle -/
theorem witness_ResetCycleOutputs :
    resetPins.rst = true ∧ (∃ t u, edge resetPins (flying 2#64 1) = .next t ∧ edge idlePins t = .next u) ∧
    idlePins.rst = false ∧ idlePins.cmdValid = false ∧ Reachable State.reset ∧ State.reset.justReset = true :=
  ⟨by decide, ⟨_, _, rfl, rfl⟩, by decide, by decide, .reset, by decide⟩

end Sys2Proof.Tests
end

section
/-! SUPPORT. What an edge does to the registers of R20, and what the completion of each kind of word does to them: the
facts that the statements about writers and about invariants share. -/

namespace Sys2Proof.Machine

/-! ## Which words are legal -/

theorem illegalCause_of_init {w : CmdWord} {seed : Word} (s : State) (hd : decode w = .ok (.init seed)) :
    illegalCause w s = none := by
  simp [illegalCause_of_ok s hd, needsSession]

theorem illegalCause_of_active {w : CmdWord} {i : Instr} {s : State} (hd : decode w = .ok i)
    (ha : s.active = true) : illegalCause w s = none := by
  simp [illegalCause_of_ok s hd, ha]

theorem illegalCause_of_not_active {w : CmdWord} {i : Instr} {s : State} (hd : decode w = .ok i)
    (hn : needsSession i = true) (ha : s.active = false) : illegalCause w s = some .notActive := by
  simp [illegalCause_of_ok s hd, hn, ha]

/-! ## The state a completion leaves, command by command -/

theorem afterWord_of_init {w : CmdWord} {seed : Word} (s : State) (hd : decode w = .ok (.init seed)) :
    afterWord w s = legalResult (.init seed) s :=
  afterWord_of_legal (illegalCause_of_init s hd) hd

theorem afterWord_of_active {w : CmdWord} {i : Instr} {s : State} (hd : decode w = .ok i)
    (ha : s.active = true) : afterWord w s = legalResult i s :=
  afterWord_of_legal (illegalCause_of_active hd ha) hd

/-- An illegal command leaves `H` (R21). -/
theorem afterWord_h_of_illegal {w : CmdWord} {s : State} {c : Cause} (hc : illegalCause w s = some c) :
    (afterWord w s).h = s.h := by
  rw [afterWord_of_illegal hc]

/-- A command that needs a session writes `H` only in one (R21, R24). -/
theorem afterWord_h_of_needsSession {w : CmdWord} {i : Instr} (s : State) (hd : decode w = .ok i)
    (hn : needsSession i = true) :
    (afterWord w s).h = if s.active then (legalResult i s).h else s.h := by
  cases ha : s.active with
  | true => rw [afterWord_of_active hd ha]; rfl
  | false => exact afterWord_h_of_illegal (illegalCause_of_not_active hd hn ha)

/-! ## The registers after an edge -/

@[simp] theorem State.registers_leaveReset (s : State) : s.leaveReset.registers = s.registers := rfl

@[simp] theorem State.registers_accept (s : State) (w : CmdWord) : (s.accept w).registers = s.registers := rfl

/-- Two states have the same registers exactly when they agree field by field. -/
theorem State.registers_eq_iff (s t : State) :
    t.registers = s.registers ↔
      t.h = s.h ∧ t.len = s.len ∧ t.active = s.active ∧ t.done = s.done ∧ t.err = s.err ∧ t.ecause = s.ecause := by
  simp [State.registers]

section
variable {p : Pins} {s t : State} (he : edge p s = .next t)
include he

/-- Reset wins over everything (R181). -/
theorem eq_resetBlock_of_edge (hr : p.rst = true) : t = s.resetBlock := by
  simpa [edge, hr] using he.symm

/-- At the last edge of a command in flight its completion takes effect (R44). -/
theorem eq_afterWord_of_edge {f : InFlight} (hr : p.rst = false) (hf : s.inFlight = some f) (hl : f.left ≤ 1) :
    t = (afterWord f.word s).leaveReset := by
  simpa [edge_inFlight hr hf, hl] using he.symm

/-- An edge at which nothing completes leaves every register (R42, R44, R161). -/
theorem registers_eq_of_edge (hr : p.rst = false) (hw : ∀ f, s.inFlight = some f → 1 < f.left) :
    t.registers = s.registers := by
  rcases edge_cases p s with ⟨h, -⟩ | ⟨f, -, hf, hl, -⟩ | ⟨f, -, -, -, h⟩ | ⟨-, -, -, h⟩ | ⟨-, -, -, h⟩
  · simp [hr] at h
  · have := hw f hf
    omega
  all_goals
    obtain rfl := Host.Outcome.next.inj (h.symm.trans he)
    rfl

end

end Sys2Proof.Machine
end

section
/-! Who writes `H` and the flags over one edge (R21, R24). -/

namespace Sys2Proof.Machine

/-- Settles O21: an edge resets, completes a word or leaves `H`, and a completed word writes `H` as its command says. -/
theorem writersOfH : Obligations.WritersOfH := by
  refine ⟨fun p s t he => ⟨fun hr => ?_, fun f hr hf hl => ?_, fun hr hw => ?_⟩, rfl, fun s hb hj => ?_⟩
  · simp [eq_resetBlock_of_edge he hr]
  · obtain rfl := eq_afterWord_of_edge he hr hf hl
    rw [State.leaveReset_h]
    refine ⟨fun seed hd => ?_, fun k hd => ?_, fun n d hd => ?_, fun e hd => ?_⟩
    · simp [afterWord_of_init s hd]
    · simp [afterWord_h_of_needsSession s hd rfl]
    · simp [afterWord_h_of_needsSession s hd rfl, finalDigest, finalLen, zext32]
    · exact afterWord_h_of_illegal (illegalCause_of_error s hd)
  · exact ((State.registers_eq_iff s t).mp (registers_eq_of_edge he hr hw)).1
  · rw [sampleOutputs_quiescent hb hj]

/-- Settles O23: an edge resets, completes a word or leaves the flags, and a completed word is legal, with its command's
effect on the session flags, or illegal, with nothing but the error recorded. -/
theorem writersOfFlags : Obligations.WritersOfFlags := by
  refine fun p s t he => ⟨fun hr => ?_, fun f hr hf hl => ?_, fun hr hw => ?_⟩
  · simp [eq_resetBlock_of_edge he hr]
  · obtain rfl := eq_afterWord_of_edge he hr hf hl
    refine ⟨fun seed hd => ?_, fun k hd ha => ?_, fun n d hd ha => ?_, fun i hd ha hi => ?_, fun c hc => ?_⟩
    · simp [afterWord_of_init s hd]
    · simp [afterWord_of_active hd ha, ha]
    · simp [afterWord_of_active hd ha]
    · have hn : needsSession i = true := by
        rcases hi with ⟨k, rfl⟩ | ⟨n, d, rfl⟩ <;> rfl
      exact illegalCause_of_not_active hd hn ha
    · simp [afterWord_of_illegal hc]
  · obtain ⟨-, -, hflags⟩ := (State.registers_eq_iff s t).mp (registers_eq_of_edge he hr hw)
    exact hflags

end Sys2Proof.Machine
end

section
/-! The invariants of R28 and R44's bound, kept by every completion and every edge. -/

namespace Sys2Proof.Machine

/-- The flag invariants speak of the registers alone. -/
theorem State.FlagsInv.of_registers_eq {s t : State} (hs : s.FlagsInv) (h : t.registers = s.registers) :
    t.FlagsInv := by
  obtain ⟨-, hlen, hactive, hdone, herr, hecause⟩ := (State.registers_eq_iff s t).mp h
  simpa [State.FlagsInv, hlen, hactive, hdone, herr, hecause] using hs

theorem State.resetBlock_flagsInv (s : State) : s.resetBlock.FlagsInv := by
  simp [State.FlagsInv]

/-- Counting a block keeps the length a multiple of 4, also where it wraps (R22, R28). -/
theorem toNat_add_four_mod_four {len : Word} (h : len.toNat % 4 = 0) : (len + 4#32).toNat % 4 = 0 := by
  rw [BitVec.toNat_add, BitVec.toNat_ofNat]
  omega

/-- Recording an error leaves a cause of R150: the new one, or the first, which is kept (R24, R28). -/
theorem State.FlagsInv.recordError {s : State} (hs : s.FlagsInv) (c : Cause) : (s.recordError c).FlagsInv := by
  obtain ⟨hsession, hlen, -, hcause⟩ := hs
  refine ⟨by simpa using hsession, by simpa using hlen, by simp, fun _ => ?_⟩
  rw [State.recordError_ecause]
  cases herr : s.err with
  | true => simpa using hcause herr
  | false => cases c <;> simp [Cause.code]

/-- A legal command keeps the flag invariants: INIT opens a session at length 0, BLOCK adds 4, FINAL closes it. -/
theorem State.FlagsInv.legalResult {s : State} (hs : s.FlagsInv) (i : Instr) :
    (Machine.legalResult i s).FlagsInv := by
  obtain ⟨hsession, hlen, hclear, hcause⟩ := hs
  cases i with
  | init seed => exact ⟨by simp, by simp, by simpa using hclear, by simpa using hcause⟩
  | block k =>
    refine ⟨by simpa using hsession, fun ha => ?_, by simpa using hclear, by simpa using hcause⟩
    rw [legalResult_block] at ha ⊢
    exact toNat_add_four_mod_four (hlen ha)
  | final t d => exact ⟨by simp, by simp, by simpa using hclear, by simpa using hcause⟩

theorem State.FlagsInv.afterWord {s : State} (hs : s.FlagsInv) (w : CmdWord) : (Machine.afterWord w s).FlagsInv := by
  cases hc : illegalCause w s with
  | some c =>
    rw [afterWord_of_illegal hc]
    exact (hs.recordError c).of_registers_eq (by rw [State.recordError_eq]; rfl)
  | none =>
    obtain ⟨i, hd, -⟩ := (legal_iff w s).mp hc
    rw [afterWord_of_legal hc hd]
    exact hs.legalResult i

/-- Every edge keeps the flag invariants (R28). -/
theorem State.FlagsInv.edge {p : Pins} {s t : State} (hs : s.FlagsInv) (he : Machine.edge p s = .next t) :
    t.FlagsInv := by
  cases hr : p.rst with
  | true =>
    rw [eq_resetBlock_of_edge he hr]
    exact State.resetBlock_flagsInv s
  | false =>
    by_cases hw : ∀ f, s.inFlight = some f → 1 < f.left
    · exact hs.of_registers_eq (registers_eq_of_edge he hr hw)
    · push Not at hw
      obtain ⟨f, hf, hl⟩ := hw
      rw [eq_afterWord_of_edge he hr hf hl]
      exact (hs.afterWord f.word).of_registers_eq (State.registers_leaveReset _)

theorem State.FlightInv.of_none {s : State} (h : s.inFlight = none) : s.FlightInv := by
  simp [State.FlightInv, h]

theorem State.FlightInv.of_some {s : State} {f : InFlight} (h : s.inFlight = some f) (hpos : 1 ≤ f.left)
    (hle : f.left ≤ Config.latMax) : s.FlightInv := by
  simp [State.FlightInv, h, hpos, hle]

/-- Every edge keeps the bound of the command in flight (R44): acceptance sets a latency, waiting counts it down. -/
theorem State.FlightInv.edge {p : Pins} {s t : State} (hs : s.FlightInv) (he : Machine.edge p s = .next t) :
    t.FlightInv := by
  rcases edge_cases p s with ⟨-, h⟩ | ⟨f, -, -, -, h⟩ | ⟨f, -, hf, hl, h⟩ | ⟨-, -, -, h⟩ | ⟨-, hf, -, h⟩ <;>
    obtain rfl := Host.Outcome.next.inj (h.symm.trans he)
  · exact .of_none (State.resetBlock_inFlight s)
  · exact .of_none (afterWord_inFlight _ _)
  · obtain ⟨-, hle⟩ := hs f hf
    exact .of_some rfl (Nat.le_sub_one_of_lt hl) ((Nat.sub_le _ 1).trans hle)
  · obtain ⟨hpos, hle⟩ := latencyOf_bounds p.cmdWord s.leaveReset
    exact .of_some (State.accept_inFlight _ _) hpos hle
  · exact .of_none ((State.leaveReset_inFlight s).trans hf)

/-- What holds after reset and is kept by every edge holds in every reachable state. -/
theorem Reachable.invariant {P : State → Prop} (hreset : P State.reset)
    (hedge : ∀ (p : Pins) (s t : State), P s → Machine.edge p s = .next t → P t) {s : State} (hs : Reachable s) :
    P s := by
  induction hs with
  | reset => exact hreset
  | edge p _ he ih => exact hedge p _ _ ih he

theorem Reachable.flagsInv {s : State} (hs : Reachable s) : s.FlagsInv :=
  hs.invariant (by decide) fun _ _ _ h he => h.edge he

theorem Reachable.flightInv {s : State} (hs : Reachable s) : s.FlightInv :=
  hs.invariant (.of_none rfl) fun _ _ _ h he => h.edge he

/-- Settles O45, by induction on the edges from reset. -/
theorem reachableStatesAreSound : Obligations.ReachableStatesAreSound := by
  intro s hs
  obtain ⟨hsession, hlen, hclear, hcause⟩ := hs.flagsInv
  exact ⟨hsession, hlen, hclear, hcause, hs.flightInv⟩

end Sys2Proof.Machine
end

section
/-! The byte order of `DATA` in a BLOCK and in a FINAL (R46, R47). -/

namespace Sys2Proof

/-- A decoded command has its operands from the fields of the word: `DATA` whole, and in FINAL `TLEN` (R63, R64). -/
theorem operands_of_decode {w : CmdWord} {i : Instr} (hd : decode w = .ok i) :
    i = .init (dataField w) ∨ i = .block (dataField w) ∨ i = .final (tlenField w) (dataField w) := by
  rcases decode_cases w with ⟨-, h⟩ | ⟨-, h⟩ | ⟨-, h⟩ | ⟨-, h⟩ | ⟨-, h⟩ <;> rw [h] at hd <;> cases hd
  · exact .inl rfl
  · exact .inr (.inl rfl)
  · exact .inr (.inr rfl)

theorem eq_dataField_of_decode_block {w : CmdWord} {k : Word} (hd : decode w = .ok (.block k)) :
    k = dataField w := by
  simpa using operands_of_decode hd

theorem eq_dataField_of_decode_final {w : CmdWord} {t : BitVec 2} {d : Word}
    (hd : decode w = .ok (.final t d)) : d = dataField w := by
  have hop : t = tlenField w ∧ d = dataField w := by simpa using operands_of_decode hd
  exact hop.2

end Sys2Proof

namespace Sys2Proof.Machine

/-- Byte `i` of `DATA` lies at bit `32 + 8i` of the command word (R60). -/
theorem byteOf_dataField (w : CmdWord) (i : Nat) : byteOf (dataField w) i = w.extractLsb' (32 + 8 * i) 8 := by
  apply BitVec.eq_of_toNat_eq
  rw [byteOf_toNat, dataField_toNat, BitVec.extractLsb'_toNat, Nat.shiftRight_eq_div_pow, Nat.div_div_eq_div_mul,
    ← pow_add]

/-- A word is `le32` of its four bytes (R9). -/
theorem le32_byteOf (x : Word) : le32 (byteOf x 0) (byteOf x 1) (byteOf x 2) (byteOf x 3) = x := by
  have := x.isLt
  apply BitVec.eq_of_toNat_eq
  simp only [le32_toNat, byteOf_toNat]
  omega

/-- The packed tail keeps each of its bytes in place (R110). -/
theorem byteOf_packTail_of_lt (d : Word) {t : BitVec 2} {i : Nat} (hi : i < t.toNat) :
    byteOf (packTail d t) i = byteOf d i := by
  have hsplit : 8 * t.toNat = 8 * i + 8 * (t.toNat - i) := by omega
  have hbyte : 2 ^ 8 ∣ 2 ^ (8 * (t.toNat - i)) := pow_dvd_pow 2 (by omega)
  apply BitVec.eq_of_toNat_eq
  rw [byteOf_toNat, byteOf_toNat, packTail_toNat, hsplit, pow_add, Nat.mod_mul_right_div_self,
    Nat.mod_mod_of_dvd _ hbyte]

/-- Settles O7: the block word is `DATA`, which is `le32` of its bytes. -/
theorem blockByteOrder : Obligations.BlockByteOrder := by
  refine fun w k hd => ⟨?_, le32_toNat⟩
  rw [eq_dataField_of_decode_block hd, ← byteOf_dataField w 0, ← byteOf_dataField w 1, ← byteOf_dataField w 2,
    ← byteOf_dataField w 3, le32_byteOf]

/-- Settles O8: the tail is `DATA`, and packing it moves no byte below `t`. -/
theorem tailByteOrder : Obligations.TailByteOrder := by
  refine fun w t d i hd hi => ⟨?_, byteOf_packTail_of_lt d hi⟩
  rw [eq_dataField_of_decode_final hd, byteOf_dataField]

end Sys2Proof.Machine
end

section
/-! The handshake and the life of an accepted command, from its acceptance to its completion or a reset (R42 to R44). -/

namespace Sys2Proof.Machine

theorem cmdReady_iff (rst : Bool) (s : State) : cmdReady rst s = true ↔ s.busy = false ∧ rst = false := by
  simp only [cmdReady, Bool.and_eq_true, Bool.not_eq_true']

theorem accepted_iff (p : Pins) (s : State) :
    accepted p s = true ↔ p.rst = false ∧ p.cmdValid = true ∧ cmdReady p.rst s = true := by
  simp only [accepted, Bool.and_eq_true, Bool.not_eq_true', and_assoc]

theorem not_accepted_of_busy (p : Pins) {s : State} (hb : s.busy = true) : accepted p s = false := by
  simp [accepted, cmdReady, hb]

/-- Settles O25: `cmd_ready` is `BUSY = 0` and `rst = 0`, and acceptance needs it. -/
theorem readyExactlyWhenQuiescent : Obligations.ReadyExactlyWhenQuiescent :=
  ⟨cmdReady_iff, fun p _ => not_accepted_of_busy p⟩

/-- A quiescent block accepts exactly what is presented (R42, R43). -/
theorem accepted_of_quiescent {p : Pins} {s : State} (hr : p.rst = false) (hb : s.busy = false) :
    accepted p s = p.cmdValid := by
  simp [accepted, cmdReady, hr, hb]

/-- An edge with `rst = 0` at a quiescent block accepts what is presented, or holds (R42, R161). -/
theorem edge_quiescent {p : Pins} {s : State} (hr : p.rst = false) (hb : s.busy = false) :
    edge p s = .next (if accepted p s then s.leaveReset.accept p.cmdWord else s.leaveReset) := by
  have hnone := (State.busy_eq_false s).mp hb
  rw [accepted_of_quiescent hr hb]
  rcases edge_cases p s with ⟨h, -⟩ | ⟨f, -, hf, -⟩ | ⟨f, -, hf, -⟩ | ⟨-, -, hv, h⟩ | ⟨-, -, hv, h⟩
  · simp [hr] at h
  · simp [hnone] at hf
  · simp [hnone] at hf
  · simp [h, hv]
  · simp [h, hv]

/-- The accepting edge samples the word, sets its latency and ends the reset cycle (R42). -/
theorem edge_of_accepted {p : Pins} {s : State} (ha : accepted p s = true) :
    edge p s = .next (s.leaveReset.accept p.cmdWord) := by
  obtain ⟨hr, -, hready⟩ := (accepted_iff p s).mp ha
  obtain ⟨hb, -⟩ := (cmdReady_iff _ _).mp hready
  rw [edge_quiescent hr hb, if_pos ha]

/-- While a command is in flight an edge looks at `rst` alone, not at the command ports (R42). -/
theorem edge_congr_of_busy {p q : Pins} {s : State} (hb : s.busy = true) (hq : q.rst = p.rst) :
    edge q s = edge p s := by
  obtain ⟨f, hf⟩ := (State.busy_eq_true s).mp hb
  cases hr : p.rst with
  | true => simp [edge, hr, hq]
  | false => rw [edge_inFlight (hq.trans hr) hf, edge_inFlight hr hf]

/-- Settles O26: an edge at a quiescent block accepts or holds, and one at a busy block does not see the command ports. -/
theorem acceptanceSamplesTheWord : Obligations.AcceptanceSamplesTheWord := by
  refine fun p s t he => ⟨accepted_iff p s, fun ha => ?_, fun ha hr hb => ?_, fun hb q hq => ?_⟩
  · obtain rfl := Host.Outcome.next.inj ((edge_of_accepted ha).symm.trans he)
    exact ⟨rfl, _, State.accept_inFlight _ _⟩
  · rw [edge_quiescent hr hb, ha] at he
    obtain rfl := Host.Outcome.next.inj he
    exact ⟨State.registers_leaveReset s, (State.busy_eq_false s).mp hb⟩
  · rw [edge_congr_of_busy hb hq, he]

section
variable {p : Pins} {s : State} {qs : List Pins} (ha : accepted p s = true) (hr : ∀ q ∈ qs, q.rst = false)
include ha

/-- After the accepting edge the block runs on with the sampled word in flight for its latency (R42, R189). -/
theorem runEdges_of_accepted :
    runEdges (p :: qs) s =
      runEdges qs { s.leaveReset with inFlight := some ⟨p.cmdWord, latencyOf p.cmdWord s⟩ } := by
  rw [runEdges_cons_next (edge_of_accepted ha), State.accept, latencyOf_leaveReset]

include hr

/-- Fewer edges after acceptance than the latency leave the command in flight and write nothing (R44). -/
theorem runEdges_accepted_flight (hl : qs.length < latencyOf p.cmdWord s) :
    runEdges (p :: qs) s =
      .next { s.leaveReset with inFlight := some ⟨p.cmdWord, latencyOf p.cmdWord s - qs.length⟩ } := by
  rw [runEdges_of_accepted ha, runEdges_flight _ _ _ _ (State.leaveReset_justReset s) hr hl]

/-- An accepted command completes as many edges on as its latency says (R44, R189). -/
theorem runEdges_accepted_complete (hl : qs.length = latencyOf p.cmdWord s) :
    runEdges (p :: qs) s = .next (afterWord p.cmdWord s.leaveReset) := by
  rw [runEdges_of_accepted ha,
    runEdges_complete _ _ _ _ (State.leaveReset_justReset s) hr (latencyOf_bounds _ _).1 hl]

end

/-- A run that ends in a reset edge leaves the reset registers and nothing in flight (R181). -/
theorem runEdges_concat_reset {ps : List Pins} {s t : State} (h : runEdges ps s = .next t) {r : Pins}
    (hr : r.rst = true) : runEdges (ps ++ [r]) s = .next t.resetBlock := by
  have hedge : edge r t = .next t.resetBlock := by simp [edge, hr]
  rw [runEdges_append h, runEdges_cons_next hedge, runEdges_nil]

/-- Settles O27: `n` is the latency fixed at acceptance, and `t` what the completion leaves at the accepting state. -/
theorem commandCompletesAtomically : Obligations.CommandCompletesAtomically := by
  intro p s ha
  obtain ⟨hpos, hle⟩ := latencyOf_bounds p.cmdWord s
  refine ⟨latencyOf p.cmdWord s, afterWord p.cmdWord s.leaveReset, hpos, hle, completeWord_eq _ _, ?_,
    fun qs hqs => ⟨fun hl => ?_, runEdges_accepted_complete ha hqs⟩⟩
  · rw [State.busy_eq_false, afterWord_inFlight]
  · have hflight := runEdges_accepted_flight ha hqs hl
    exact ⟨⟨_, hflight, rfl, rfl⟩, fun r hr =>
      ⟨_, runEdges_concat_reset hflight hr, rfl, State.resetBlock_inFlight _⟩⟩

end Sys2Proof.Machine
end

section
/-! The answers of the decoder, each with the words that give it, and the match and mask table (R62, R63, R66). -/

namespace Sys2Proof

/-! ## Which words give which answer -/

theorem decode_eq_reservedOpcode_iff (w : CmdWord) :
    decode w = .error .reservedOpcode ↔ w.toNat % 16 ≠ 1 ∧ w.toNat % 16 ≠ 2 ∧ w.toNat % 16 ≠ 3 := by
  rcases decode_cases w with ⟨hw, h⟩ | ⟨hw, h⟩ | ⟨hw, h⟩ | ⟨hw, h⟩ | ⟨hw, h⟩ <;> simp [h] <;> omega

theorem decode_eq_reservedField_iff (w : CmdWord) :
    decode w = .error .reservedField ↔
      (w.toNat % 16 = 1 ∨ w.toNat % 16 = 2 ∨ w.toNat % 16 = 3) ∧
        (w.toNat / 64 % 2 ^ 26 ≠ 0 ∨ (w.toNat / 16 % 4 ≠ 0 ∧ w.toNat % 16 ≠ 3)) := by
  rcases decode_cases w with ⟨hw, h⟩ | ⟨hw, h⟩ | ⟨hw, h⟩ | ⟨hw, h⟩ | ⟨hw, h⟩ <;> simp [h] <;> omega

theorem decode_eq_init_iff (w : CmdWord) (seed : Word) :
    decode w = .ok (.init seed) ↔ w.toNat % 2 ^ 32 = 1 ∧ dataField w = seed := by
  rcases decode_cases w with ⟨hw, h⟩ | ⟨hw, h⟩ | ⟨hw, h⟩ | ⟨hw, h⟩ | ⟨hw, h⟩ <;> simp [h] <;> omega

theorem decode_eq_block_iff (w : CmdWord) (k : Word) :
    decode w = .ok (.block k) ↔ w.toNat % 2 ^ 32 = 2 ∧ dataField w = k := by
  rcases decode_cases w with ⟨hw, h⟩ | ⟨hw, h⟩ | ⟨hw, h⟩ | ⟨hw, h⟩ | ⟨hw, h⟩ <;> simp [h] <;> omega

theorem decode_eq_final_iff (w : CmdWord) (t : BitVec 2) (d : Word) :
    decode w = .ok (.final t d) ↔
      (w.toNat % 16 = 3 ∧ w.toNat / 64 % 2 ^ 26 = 0) ∧ tlenField w = t ∧ dataField w = d := by
  rcases decode_cases w with ⟨hw, h⟩ | ⟨hw, h⟩ | ⟨hw, h⟩ | ⟨hw, h⟩ | ⟨hw, h⟩ <;> simp [h] <;> omega

theorem tlenField_eq_ofNat (w : CmdWord) : tlenField w = BitVec.ofNat 2 (w.toNat / 16 % 4) := by
  rw [← tlenField_toNat, BitVec.ofNat_toNat, BitVec.setWidth_eq]

theorem dataField_eq_ofNat (w : CmdWord) : dataField w = BitVec.ofNat 32 (w.toNat / 2 ^ 32) := by
  rw [← dataField_toNat, BitVec.ofNat_toNat, BitVec.setWidth_eq]

/-- Settles O5: each clause's condition is that of its answer. -/
theorem decodeChecksInOrder : Obligations.DecodeChecksInOrder := by
  intro w op tlen rsvd data
  refine ⟨fun hop => ?_, fun ⟨hop, hrsvd⟩ => ?_, fun ⟨hop, _, htlen⟩ => ?_, fun ⟨hop, hrsvd, htlen⟩ => ?_,
    fun ⟨hop, hrsvd, htlen⟩ => ?_, fun ⟨hop, hrsvd⟩ => ?_⟩
  · exact (decode_eq_reservedOpcode_iff w).mpr hop
  · exact (decode_eq_reservedField_iff w).mpr ⟨hop, .inl hrsvd⟩
  · exact (decode_eq_reservedField_iff w).mpr ⟨by omega, .inr ⟨htlen, by omega⟩⟩
  · exact (decode_eq_init_iff w _).mpr ⟨by omega, dataField_eq_ofNat w⟩
  · exact (decode_eq_block_iff w _).mpr ⟨by omega, dataField_eq_ofNat w⟩
  · exact (decode_eq_final_iff w _ _).mpr ⟨⟨hop, hrsvd⟩, tlenField_eq_ofNat w, dataField_eq_ofNat w⟩

/-! ## The match and mask table -/

/-- A word is its four fields (R60). -/
theorem eq_iff_fields (w v : CmdWord) :
    w = v ↔ opField w = opField v ∧ tlenField w = tlenField v ∧ rsvdField w = rsvdField v ∧
      dataField w = dataField v := by
  simp only [← BitVec.toNat_inj, opField_toNat, tlenField_toNat, rsvdField_toNat, dataField_toNat]
  omega

theorem opField_and (w m : CmdWord) : opField (w &&& m) = opField w &&& opField m :=
  BitVec.extractLsb'_and

theorem tlenField_and (w m : CmdWord) : tlenField (w &&& m) = tlenField w &&& tlenField m :=
  BitVec.extractLsb'_and

theorem rsvdField_and (w m : CmdWord) : rsvdField (w &&& m) = rsvdField w &&& rsvdField m :=
  BitVec.extractLsb'_and

theorem dataField_and (w m : CmdWord) : dataField (w &&& m) = dataField w &&& dataField m :=
  BitVec.extractLsb'_and

/-- The mask of the rows INIT and BLOCK keeps the low half of a word (R62). -/
theorem and_low32_eq_iff (w m : CmdWord) :
    w &&& 0x00000000FFFFFFFF#64 = m ↔ w.toNat % 2 ^ 32 = m.toNat := by
  rw [← BitVec.toNat_inj, toNat_and_low32]

/-- The mask of the row FINAL keeps `OP` and `RSVD` and clears `TLEN` and `DATA` (R62). -/
theorem and_finalMask_eq_iff (w : CmdWord) :
    w &&& 0x00000000FFFFFFCF#64 = 0x0000000000000003#64 ↔ w.toNat % 16 = 3 ∧ w.toNat / 64 % 2 ^ 26 = 0 := by
  obtain ⟨hop, htlen, hrsvd, hdata⟩ : opField 0x00000000FFFFFFCF#64 = BitVec.allOnes 4 ∧
      tlenField 0x00000000FFFFFFCF#64 = 0#2 ∧ rsvdField 0x00000000FFFFFFCF#64 = BitVec.allOnes 26 ∧
      dataField 0x00000000FFFFFFCF#64 = 0#32 := by decide
  have hpattern : 0x0000000000000003#64 = packCommand 0#32 0#2 opFinal := by decide
  obtain ⟨-, -, hfinal⟩ := opField_cases w
  simp only [hpattern, eq_iff_fields, opField_and, tlenField_and, rsvdField_and, dataField_and, hop, htlen, hrsvd,
    hdata, opField_packCommand, tlenField_packCommand, rsvdField_packCommand, dataField_packCommand,
    BitVec.and_allOnes, BitVec.and_zero, hfinal, rsvdField_zero_iff, true_and, and_true]

/-! ## The rows and the decoder -/

theorem initRow_iff (w : CmdWord) :
    w &&& 0x00000000FFFFFFFF#64 = 0x0000000000000001#64 ↔ ∃ seed, decode w = .ok (.init seed) := by
  simp [and_low32_eq_iff, decode_eq_init_iff]

theorem blockRow_iff (w : CmdWord) :
    w &&& 0x00000000FFFFFFFF#64 = 0x0000000000000002#64 ↔ ∃ k, decode w = .ok (.block k) := by
  simp [and_low32_eq_iff, decode_eq_block_iff]

theorem finalRow_iff (w : CmdWord) :
    w &&& 0x00000000FFFFFFCF#64 = 0x0000000000000003#64 ↔ ∃ t d, decode w = .ok (.final t d) := by
  simp [and_finalMask_eq_iff, decode_eq_final_iff]

/-- A word matches some row exactly when it decodes (R62, R66). -/
theorem wordWellFormed_iff (w : CmdWord) : wordWellFormed w = true ↔ ∃ i, decode w = .ok i := by
  have hrows : wordWellFormed w = true ↔ w &&& 0x00000000FFFFFFFF#64 = 0x0000000000000001#64 ∨
      w &&& 0x00000000FFFFFFFF#64 = 0x0000000000000002#64 ∨
      w &&& 0x00000000FFFFFFCF#64 = 0x0000000000000003#64 := by
    simp [wordWellFormed, commandRows, CommandRow.holds]
  rw [hrows, initRow_iff, blockRow_iff, finalRow_iff]
  constructor
  · rintro (⟨seed, hd⟩ | ⟨k, hd⟩ | ⟨t, d, hd⟩) <;> exact ⟨_, hd⟩
  · rintro ⟨i, hd⟩
    cases i with
    | init seed => exact .inl ⟨seed, hd⟩
    | block k => exact .inr (.inl ⟨k, hd⟩)
    | final t d => exact .inr (.inr ⟨t, d, hd⟩)

theorem not_wordWellFormed_iff (w : CmdWord) : wordWellFormed w = false ↔ ∃ e, decode w = .error e := by
  rw [← Bool.not_eq_true, wordWellFormed_iff]
  cases decode w <;> simp

/-- Every row's mask keeps `OP`, so a word that matches a row has that row's `OP`. -/
theorem CommandRow.opField_of_holds {r : CommandRow} {w : CmdWord} (hr : r ∈ commandRows) (h : r.holds w = true) :
    opField w = opField r.pattern := by
  have hmask : ∀ q ∈ commandRows, opField q.mask = BitVec.allOnes 4 := by decide
  have hmatch : w &&& r.mask = r.pattern := by simpa [CommandRow.holds] using h
  rw [← hmatch, opField_and, hmask r hr, BitVec.and_allOnes]

/-- `OP` tells the rows apart (R61). -/
theorem CommandRow.eq_of_opField_eq :
    ∀ r ∈ commandRows, ∀ q ∈ commandRows, opField r.pattern = opField q.pattern → r = q := by
  decide

/-- Settles O4: each row is its command, and two rows that match one word have its `OP` in common. -/
theorem decodeAgreesWithMatchMaskTable : Obligations.DecodeAgreesWithMatchMaskTable :=
  ⟨fun w => ⟨initRow_iff w, blockRow_iff w, finalRow_iff w, not_wordWellFormed_iff w⟩,
    fun _ r q hr hq hrw hqw => CommandRow.eq_of_opField_eq r hr q hq
      ((CommandRow.opField_of_holds hr hrw).symm.trans (CommandRow.opField_of_holds hq hqw))⟩

end Sys2Proof
end

section
/-! How each command uses `DATA`, and which of its bits are ignored (R63). -/

namespace Sys2Proof

theorem eq_dataField_of_decode_init {w : CmdWord} {seed : Word} (hd : decode w = .ok (.init seed)) :
    seed = dataField w := by
  simpa using operands_of_decode hd

end Sys2Proof

namespace Sys2Proof.Machine

theorem exec_init (seed : Word) (s : State) : exec (.init seed) s = .next (legalResult (.init seed) s) :=
  execInit_eq seed s

theorem exec_block_of_active (k : Word) {s : State} (ha : s.active = true) :
    exec (.block k) s = .next (legalResult (.block k) s) :=
  execBlock_of_active k ha

theorem exec_final (t : BitVec 2) (d : Word) (s : State) : exec (.final t d) s = execFinal t d s := rfl

section
variable {t : BitVec 2} {d d' : Word} (hd : d.toNat % 2 ^ (8 * t.toNat) = d'.toNat % 2 ^ (8 * t.toNat))
include hd

/-- The digest reads `DATA` through the packed tail alone (R110, R111). -/
theorem finalDigest_congr (h len : Word) : finalDigest h len t d = finalDigest h len t d' := by
  rw [finalDigest, finalDigest, tailMix, tailMix, packTail_congr hd]

/-- Bits of `DATA` from `8*TLEN` up have no effect on FINAL, whether it completes or raises its cause (R63, R116). -/
theorem execFinal_congr (s : State) : execFinal t d s = execFinal t d' s := by
  rw [execFinal, execFinal, finalDigest_congr hd]

end

/-- Settles O6: a decoded command has `DATA` whole as its operand, INIT and BLOCK write `H` from the whole operand, and
FINAL depends on its packed tail. -/
theorem dataFieldUse : Obligations.DataFieldUse := by
  refine ⟨fun w seed hd => ?_, fun w k hd => ?_, fun w t d hd => ?_,
    fun seed k s t => ⟨fun h => ?_, fun ha h => ?_⟩, fun t d d' s hd => ?_⟩
  · rw [eq_dataField_of_decode_init hd, dataField_toNat]
  · rw [eq_dataField_of_decode_block hd, dataField_toNat]
  · rw [eq_dataField_of_decode_final hd, dataField_toNat]
  · obtain rfl := Host.Outcome.next.inj ((exec_init seed s).symm.trans h)
    rw [legalResult_init]
  · obtain rfl := Host.Outcome.next.inj ((exec_block_of_active k ha).symm.trans h)
    rw [legalResult_block]
  · rw [exec_final, exec_final, execFinal_congr hd]

end Sys2Proof.Machine
end

section
/-! The byte-wise pseudo-instructions (R70). -/

namespace Sys2Proof.Machine

/-- A written command that the assembler takes stands for one word (R69). -/
theorem assemble_cmd_of_wellFormed (buf : List Byte) {a : Asm} (ha : a.wellFormed = true) :
    assemble buf (.cmd a) = some [a.word] :=
  if_pos ha

/-- A byte written as its number is in the assembler's range (R70). -/
theorem byte_toNat_le_255 (b : Byte) : b.toNat ≤ 255 :=
  Nat.le_of_lt_succ b.isLt

theorem byteAt_map_toNat (bs : List Byte) (i : Nat) : byteAt (bs.map BitVec.toNat) i = bs.getD i 0#8 := by
  cases h : bs[i]? <;> simp [byteAt, h]


theorem assemble_blockB (buf : List Byte) (b0 b1 b2 b3 : Byte) :
    assemble buf (.cmd (.blockB b0.toNat b1.toNat b2.toNat b3.toNat)) = some [encode (.block (le32 b0 b1 b2 b3))] := by
  rw [assemble_cmd_of_wellFormed buf (by simp [Asm.wellFormed, byte_toNat_le_255])]
  simp [Asm.word]

/-- FINALB of up to three bytes is FINAL with their number and the bytes packed, what is omitted 0 (R69, R70). -/
theorem assemble_finalB (buf bs : List Byte) (hlen : bs.length ≤ 3) :
    assemble buf (.cmd (.finalB (bs.map BitVec.toNat))) = some [encode (.final (BitVec.ofNat 2 bs.length)
      (le32 (bs.getD 0 0#8) (bs.getD 1 0#8) (bs.getD 2 0#8) 0#8))] := by
  rw [assemble_cmd_of_wellFormed buf (by simp [Asm.wellFormed, hlen, byte_toNat_le_255]), Asm.word]
  simp only [byteAt_map_toNat, List.length_map]

/-- Settles O54: BLOCKB of four bytes, and FINALB of none, one, two and three. -/
theorem pseudoInstructionExpansions : Obligations.PseudoInstructionExpansions :=
  fun buf b0 b1 b2 b3 => ⟨assemble_blockB buf b0 b1 b2 b3, assemble_finalB buf [] (by decide),
    assemble_finalB buf [b0] (by decide : 1 ≤ 3), assemble_finalB buf [b0, b1] (by decide : 2 ≤ 3),
    assemble_finalB buf [b0, b1, b2] (by decide : 3 ≤ 3)⟩

end Sys2Proof.Machine
end

section
/-! The key mix is a bijection, and the block round and the tail mix are built on it (R92, R93, R111). -/

namespace Sys2Proof.Machine

/-- A rotate is undone by the rotate that completes it to a full turn (R8). -/
theorem rotl32_rotl32 (x : Word) {r q : Nat} (hr : 0 < r) (hq : 0 < q) (hrq : r + q = 32) :
    rotl32 (rotl32 x r) q = x := by
  have hr32 : r < 32 := by omega
  have hq32 : q < 32 := by omega
  rw [rotl32_eq_rotateLeft x r hr32, rotl32_eq_rotateLeft _ q hq32]
  ext i hi
  simp only [BitVec.getElem_rotateLeft, Nat.mod_eq_of_lt hq32, Nat.mod_eq_of_lt hr32]
  by_cases hiq : i < q
  · have hback : 32 - q + i - r = i := by omega
    have hge : ¬ 32 - q + i < r := by omega
    simp [hiq, hge, hback]
  · have hback : 32 - r + (i - q) = i := by omega
    have hlt : i - q < r := by omega
    simp [hiq, hlt, hback]

theorem rotl32_bijective {r : Nat} (hr : 0 < r) (hr32 : r < 32) : Function.Bijective (rotl32 · r) :=
  Function.bijective_iff_has_inverse.mpr ⟨(rotl32 · (32 - r)),
    fun x => rotl32_rotl32 x hr (by omega) (by omega), fun x => rotl32_rotl32 x (by omega) hr (by omega)⟩

/-- An odd factor can be cancelled modulo `2^32`, so multiplying by it is a bijection of the words. -/
theorem mul_bijective_of_odd {c : Word} (hc : Odd c.toNat) : Function.Bijective (· * c) := by
  have hcoprime : Nat.gcd (2 ^ 32) c.toNat = 1 := (Nat.coprime_two_left.mpr hc).pow_left 32
  refine Finite.injective_iff_bijective.mp fun x y h => BitVec.eq_of_toNat_eq ?_
  have hmul : x.toNat * c.toNat ≡ y.toNat * c.toNat [MOD 2 ^ 32] := by
    simpa only [Nat.ModEq, BitVec.toNat_mul] using congrArg BitVec.toNat h
  exact (hmul.cancel_right_of_coprime hcoprime).eq_of_lt_of_lt x.isLt y.isLt

/-- The key mix multiplies by odd constants around a rotate (R92). -/
theorem kmix_bijective : Function.Bijective kmix :=
  (mul_bijective_of_odd (c := c2) (by decide)).comp <|
    (rotl32_bijective (r := 15) (by decide) (by decide)).comp (mul_bijective_of_odd (c := c1) (by decide))

theorem kmix_zero : kmix 0#32 = 0#32 := by decide

theorem kmix_toNat (k : Word) :
    (kmix k).toNat = (k.toNat * 0xcc9e2d51 % 2 ^ 32 * 2 ^ 15 % 2 ^ 32 + k.toNat * 0xcc9e2d51 % 2 ^ 32 / 2 ^ 17) *
      0x1b873593 % 2 ^ 32 := by
  rw [kmix_eq, mul_c2_toNat, rotl32_toNat _ 15 (by decide), mul_c1_toNat]

theorem blockMix_eq_rotateLeft (h k : Word) :
    blockMix h k = (h ^^^ kmix k).rotateLeft 13 * 5#32 + 0xe6546b64#32 := by
  rw [blockMix_eq, rotl32_eq_rotateLeft _ 13 (by decide), mulM, addN]

theorem blockMix_toNat (h k : Word) :
    (blockMix h k).toNat =
      (((h ^^^ kmix k).toNat * 2 ^ 13 % 2 ^ 32 + (h ^^^ kmix k).toNat / 2 ^ 19) * 5 + 0xe6546b64) % 2 ^ 32 := by
  rw [blockMix_eq, mulM_addN_toNat, rotl32_toNat _ 13 (by decide)]

/-- Settles O9: each step of the key mix as arithmetic and as a bijection, and its two users. -/
theorem kmixArithmetic : Obligations.KmixArithmetic :=
  ⟨kmix_toNat, kmix_zero, kmix_bijective, blockMix_eq_rotateLeft, fun h d _ ht => tailMix_of_ne_zero h d ht⟩

/-- Settles O10: the rotate of `h ^ kmix(k)`, then the multiply-add. -/
theorem blockMixArithmetic : Obligations.BlockMixArithmetic :=
  blockMix_toNat

end Sys2Proof.Machine
end

section
/-! The packed tail byte by byte, and the tail mix beside the block round (R110, R111, R112). -/

namespace Sys2Proof.Machine

/-- Nothing of `DATA` above byte `t-1` reaches the packed tail (R110). -/
theorem byteOf_packTail_of_le (d : Word) {t : BitVec 2} {i : Nat} (hi : t.toNat ≤ i) :
    byteOf (packTail d t) i = 0#8 := by
  have hlt : d.toNat % 2 ^ (8 * t.toNat) < 2 ^ (8 * i) :=
    calc d.toNat % 2 ^ (8 * t.toNat) < 2 ^ (8 * t.toNat) := Nat.mod_lt _ (Nat.two_pow_pos _)
      _ ≤ 2 ^ (8 * i) := Nat.pow_le_pow_right (by decide) (Nat.mul_le_mul_left 8 hi)
  apply BitVec.eq_of_toNat_eq
  rw [byteOf_toNat, packTail_toNat, Nat.div_eq_of_lt hlt, Nat.zero_mod, BitVec.toNat_zero]

/-- Settles O11: a byte below `t` is kept, a byte from `t` up is cleared. -/
theorem packTailBytes : Obligations.PackTailBytes := by
  intro d t i _
  split
  next hi => exact byteOf_packTail_of_lt d hi
  next hi => exact byteOf_packTail_of_le d (Nat.le_of_not_lt hi)

/-- Settles O12: the block round on the packed tail starts from the value at which the tail mix stops. -/
theorem tailMixIsBlockMixWithoutRound : Obligations.TailMixIsBlockMixWithoutRound := by
  refine fun h d t => ⟨fun ht => ?_, fun ht => ⟨tailMix_of_ne_zero h d ht, ?_⟩⟩
  · rw [ht, tailMix_zero]
  · rw [tailMix_of_ne_zero h d ht, blockMix_eq_rotateLeft]

end Sys2Proof.Machine
end

section
/-! The avalanche mix as arithmetic and as a bijection (R114). -/

namespace Sys2Proof.Machine

theorem fmix32_zero : fmix32 0#32 = 0#32 := by decide

theorem xorShiftRight_xor (x y : Word) (n : Nat) :
    xorShiftRight (x ^^^ y) n = xorShiftRight x n ^^^ xorShiftRight y n := by
  simp only [xorShiftRight, BitVec.ushiftRight_xor_distrib]
  ac_rfl

/-- Only the zero word is its own right shift, so only it is sent to zero (R114). -/
theorem eq_zero_of_xorShiftRight_eq_zero {x : Word} {n : Nat} (hn : 0 < n) (h : xorShiftRight x n = 0#32) :
    x = 0#32 := by
  have hself : x.toNat = x.toNat / 2 ^ n := by
    rw [← Nat.shiftRight_eq_div_pow, ← BitVec.toNat_ushiftRight, ← BitVec.xor_eq_zero_iff.mp h]
  have hpow : 2 ^ n ≠ 1 := (Nat.one_lt_two_pow hn.ne').ne'
  exact BitVec.eq_of_toNat_eq ((Nat.div_eq_self.mp hself.symm).resolve_right hpow)

/-- An XOR-shift step is linear with a trivial kernel, so it is invertible (R114). -/
theorem xorShiftRight_bijective {n : Nat} (hn : 0 < n) : Function.Bijective (xorShiftRight · n) := by
  refine Finite.injective_iff_bijective.mp fun x y h => BitVec.xor_eq_zero_iff.mp ?_
  apply eq_zero_of_xorShiftRight_eq_zero hn
  rw [xorShiftRight_xor, BitVec.xor_eq_zero_iff]
  exact h

/-- The avalanche mix alternates XOR-shifts with products by odd constants (R113, R114). -/
theorem fmix32_bijective : Function.Bijective fmix32 :=
  (xorShiftRight_bijective (n := 16) (by decide)).comp <|
    (mul_bijective_of_odd (c := f2) (by decide)).comp <|
      (xorShiftRight_bijective (n := 13) (by decide)).comp <|
        (mul_bijective_of_odd (c := f1) (by decide)).comp (xorShiftRight_bijective (n := 16) (by decide))

/-- Settles O13: each step of the avalanche mix as arithmetic, its value at zero, and its bijective steps. -/
theorem fmix32Arithmetic : Obligations.Fmix32Arithmetic := by
  refine ⟨fun h => ?_, fmix32_zero, fmix32_bijective⟩
  rw [fmix32_eq, xorShiftRight_toNat, mul_f2_toNat, xorShiftRight_toNat, mul_f1_toNat, xorShiftRight_toNat]

end Sys2Proof.Machine
end

section
/-! The run of a host program made of commands that are legal where they complete (R145, R163). -/

namespace Sys2Proof

/-- The decoder reads back the command an encoded word was made from (R60 to R66). -/
theorem decode_encode (i : Instr) : decode (encode i) = .ok i := by
  cases i <;> simp [decode, encode, opInit, opBlock, opFinal]

end Sys2Proof

namespace Sys2Proof.Machine

/-- The state that a legal command of a host program leaves, once the host has moved on (R190). -/
def afterCommand (i : Instr) (s : State) : State := legalResult i s.leaveReset.advance

/-- The state that a host program of legal commands leaves. -/
def afterCommands (is : List Instr) (s : State) : State := is.foldl (fun s i => afterCommand i s) s

/-- Every command of the program that needs a session finds one open (R24, R150 cause 3). -/
def LegalAlong : List Instr → State → Prop
  | [], _ => True
  | i :: is, s => (needsSession i = true → s.active = true) ∧ LegalAlong is (afterCommand i s)

/-- The program the host still has before it at its position (R26). -/
def Presents (s : State) (is : List Instr) : Prop :=
  s.program.drop s.position = (is.map encode).map HostMove.present

@[simp] theorem afterCommand_inFlight (i : Instr) (s : State) : (afterCommand i s).inFlight = none :=
  legalResult_inFlight _ _

@[simp] theorem afterCommand_err (i : Instr) (s : State) : (afterCommand i s).err = s.err := by
  cases i <;> simp [afterCommand]

@[simp] theorem afterCommand_ecause (i : Instr) (s : State) : (afterCommand i s).ecause = s.ecause := by
  cases i <;> simp [afterCommand]

@[simp] theorem afterCommand_program (i : Instr) (s : State) : (afterCommand i s).program = s.program := by
  cases i <;> simp [afterCommand]

@[simp] theorem afterCommand_position (i : Instr) (s : State) : (afterCommand i s).position = s.position + 1 := by
  cases i <;> simp [afterCommand]

/-- INIT opens a session at length 0 with the seed in `H` (R80). -/
theorem afterCommand_init (seed : Word) (s : State) :
    (afterCommand (.init seed) s).h = seed ∧ (afterCommand (.init seed) s).len = 0#32 ∧
      (afterCommand (.init seed) s).active = true := by
  simp [afterCommand]

/-- BLOCK absorbs its word, counts four bytes and stays in the session (R95). -/
theorem afterCommand_block (k : Word) (s : State) :
    (afterCommand (.block k) s).h = blockMix s.h k ∧ (afterCommand (.block k) s).len = s.len + 4#32 ∧
      (afterCommand (.block k) s).active = s.active := by
  simp [afterCommand]

/-- FINAL leaves the digest and the whole length, and closes the session (R116). -/
theorem afterCommand_final (t : BitVec 2) (d : Word) (s : State) :
    (afterCommand (.final t d) s).h = finalDigest s.h s.len t d ∧
      (afterCommand (.final t d) s).len = finalLen s.len t ∧
      (afterCommand (.final t d) s).active = false ∧ (afterCommand (.final t d) s).done = true := by
  simp [afterCommand]

@[simp] theorem afterCommands_nil (s : State) : afterCommands [] s = s := rfl

@[simp] theorem afterCommands_cons (i : Instr) (is : List Instr) (s : State) :
    afterCommands (i :: is) s = afterCommands is (afterCommand i s) := rfl

theorem afterCommands_append (is js : List Instr) (s : State) :
    afterCommands (is ++ js) s = afterCommands js (afterCommands is s) :=
  List.foldl_append

/-- A program of legal commands records no error and leaves an earlier one as it is (R24). -/
theorem afterCommands_error (is : List Instr) (s : State) :
    (afterCommands is s).err = s.err ∧ (afterCommands is s).ecause = s.ecause := by
  induction is generalizing s with
  | nil => exact ⟨rfl, rfl⟩
  | cons i is ih => simpa using ih (afterCommand i s)

section
variable {s : State} {i : Instr} {is : List Instr}

theorem nextMove_of_presents (hp : Presents s (i :: is)) : nextMove s = some (.present (encode i)) := by
  have hhead := congrArg List.head? hp
  simpa [nextMove, List.head?_drop] using hhead

theorem Presents.afterCommand (hp : Presents s (i :: is)) : Presents (Machine.afterCommand i s) is := by
  have htail := congrArg List.tail hp
  simpa [Presents, List.tail_drop] using htail

theorem presents_loadProgram (is : List Instr) (s : State) : Presents (loadProgram (is.map encode) s) is := rfl

theorem illegalCause_encode (hl : needsSession i = true → s.active = true) : illegalCause (encode i) s = none :=
  (legal_iff _ _).mpr ⟨i, decode_encode i, hl⟩

/-- The step that makes a legal command has the command's meaning as its whole effect (R190). -/
theorem step_of_legal (hf : s.inFlight = none) (hm : nextMove s = some (.present (encode i)))
    (hl : needsSession i = true → s.active = true) : step s = .next (afterCommand i s) := by
  have hlegal : illegalCause (encode i) (s.leaveReset.advance.accept (encode i)) = none :=
    illegalCause_encode (by simpa using hl)
  rw [step_of_move hf hm, runMove_eq, afterMove, afterWord_of_legal hlegal (decode_encode i), State.accept,
    legalResult_flight, afterCommand]

/-- A program of legal commands runs to its end without a fault (R163). -/
theorem runProgram_of_legalAlong (hf : s.inFlight = none) (hp : Presents s is) (hl : LegalAlong is s) :
    runProgram is.length s = .next (afterCommands is s) := by
  induction is generalizing s with
  | nil => rfl
  | cons i is ih =>
    obtain ⟨hi, his⟩ := hl
    have hm := nextMove_of_presents hp
    have hcause : pendingCause s = none := by simp [pendingCause, hm, illegalCause_encode hi]
    simp [runProgram, hcause, step_of_legal hf hm hi, ih (afterCommand_inFlight i s) hp.afterCommand his]

end

/-- A run goes on from the state its first step leaves. -/
theorem coreRun_succ {M : Host.Core} {s t : M.State} (h : M.step s = .next t) (k : Nat) :
    M.run (k + 1) s = M.run k t := by
  rw [Host.Core.run, h]

/-- A run that meets no fault is the run of the machine's own steps (R163). -/
theorem coreRun_of_runProgram {k : Nat} {s t : State} (h : runProgram k s = .next t) :
    Host.Core.run Sys2Proof.core k s = .next t := by
  induction k generalizing s with
  | zero => exact h
  | succ k ih =>
    rw [runProgram] at h
    split at h
    · cases h
    · split at h
      next u hu => exact (coreRun_succ (M := Sys2Proof.core) hu k).trans (ih h)
      · cases h
      · cases h

end Sys2Proof.Machine
end

section
/-! The commands a HASHBUF stands for, and the digest they leave (R140 to R143). -/

namespace Sys2Proof.Machine

/-! ## The commands of a session that hashes given bytes -/

/-- The block words of the bytes, in the order of R140. -/
def blockWords (data : List Byte) : List Word := (List.range (data.length / 4)).map (blockWord data)

/-- The session that hashes the bytes: INIT, a BLOCK for each full block, FINAL with the tail (R141). -/
def hashCommands (seed : Word) (data : List Byte) : List Instr :=
  .init seed :: ((blockWords data).map .block ++ [.final (BitVec.ofNat 2 (data.length % 4)) (tailWord data)])

@[simp] theorem blockWords_length (data : List Byte) : (blockWords data).length = data.length / 4 := by
  simp [blockWords]

theorem murmur3_eq (seed : Word) (data : List Byte) :
    murmur3 seed data = fmix32 (tailMix ((blockWords data).foldl blockMix seed) (tailWord data)
      (BitVec.ofNat 2 (data.length % 4)) ^^^ trunc32 data.length) := by
  rw [murmur3, blockWords, List.foldl_map]

/-- The tail bytes in their places, with 0 for the bytes that are not there (R140). -/
theorem tailWord_eq (data : List Byte) :
    let tail := fun i => if i < data.length % 4 then dataByte data (4 * (data.length / 4) + i) else 0#8
    tailWord data = le32 (tail 0) (tail 1) (tail 2) 0#8 := by
  intro tail
  by_cases ht : data.length % 4 = 0
  · have hzero : 0#32 = le32 0#8 0#8 0#8 0#8 := by decide
    simp [tailWord, tail, ht, hzero]
  · simp [tailWord, tail, ht, Nat.pos_of_ne_zero ht]

/-- BLOCKs absorb their words in order and count four bytes each (R95). -/
theorem afterCommands_blocks (ks : List Word) (s : State) :
    (afterCommands (ks.map .block) s).h = ks.foldl blockMix s.h ∧
      (afterCommands (ks.map .block) s).len = s.len + BitVec.ofNat 32 (4 * ks.length) := by
  induction ks generalizing s with
  | nil => simp
  | cons k ks ih =>
    obtain ⟨hh, hlen⟩ := ih (afterCommand (.block k) s)
    obtain ⟨hkh, hklen, -⟩ := afterCommand_block k s
    have hcount : BitVec.ofNat 32 (4 * (k :: ks).length) = 4#32 + BitVec.ofNat 32 (4 * ks.length) := by
      rw [← BitVec.ofNat_add, List.length_cons, Nat.mul_succ, Nat.add_comm]
    rw [List.map_cons, afterCommands_cons, hh, hlen, hkh, hklen, hcount, BitVec.add_assoc, List.foldl_cons]
    exact ⟨rfl, rfl⟩

/-- The blocks and the tail of a session are legal once it is open (R24). -/
theorem legalAlong_blocks_final (ks : List Word) (t : BitVec 2) (d : Word) {s : State} (ha : s.active = true) :
    LegalAlong (ks.map .block ++ [.final t d]) s := by
  induction ks generalizing s with
  | nil => exact ⟨fun _ => ha, trivial⟩
  | cons k ks ih =>
    obtain ⟨-, -, hactive⟩ := afterCommand_block k s
    exact ⟨fun _ => ha, ih (hactive.trans ha)⟩

/-- INIT needs no session and opens one, so a whole session is legal from every state (R80). -/
theorem legalAlong_hashCommands (seed : Word) (data : List Byte) (s : State) :
    LegalAlong (hashCommands seed data) s := by
  obtain ⟨-, -, hactive⟩ := afterCommand_init seed s
  exact ⟨by simp [needsSession], legalAlong_blocks_final _ _ _ hactive⟩

/-- The blocks and the tail count every byte, modulo `2^32` (R22, R115). -/
theorem finalLen_of_blocks (n : Nat) :
    finalLen (0#32 + BitVec.ofNat 32 (4 * (n / 4))) (BitVec.ofNat 2 (n % 4)) = BitVec.ofNat 32 n := by
  apply BitVec.eq_of_toNat_eq
  simp only [finalLen, zext32, BitVec.toNat_add, BitVec.toNat_setWidth, BitVec.toNat_ofNat]
  omega

/-- What a session leaves: the digest of its bytes, their number, and a closed session (R116, R140). -/
theorem afterCommands_hashCommands (seed : Word) (data : List Byte) (s : State) :
    let t := afterCommands (hashCommands seed data) s
    t.h = murmur3 seed data ∧ t.len = BitVec.ofNat 32 data.length ∧ t.active = false ∧ t.done = true ∧
      t.inFlight = none := by
  obtain ⟨hinith, hinitlen, -⟩ := afterCommand_init seed s
  obtain ⟨hh, hlen⟩ := afterCommands_blocks (blockWords data) (afterCommand (.init seed) s)
  rw [hinith] at hh
  rw [hinitlen, blockWords_length] at hlen
  obtain ⟨hdigest, hfinal, hactive, hdone⟩ := afterCommand_final (BitVec.ofNat 2 (data.length % 4)) (tailWord data)
    (afterCommands ((blockWords data).map .block) (afterCommand (.init seed) s))
  rw [hh, hlen, finalDigest, finalLen_of_blocks] at hdigest
  rw [hlen, finalLen_of_blocks] at hfinal
  rw [hashCommands, afterCommands_cons, afterCommands_append, afterCommands_cons, afterCommands_nil, murmur3_eq]
  exact ⟨hdigest, hfinal, hactive, hdone, afterCommand_inFlight _ _⟩

/-! ## The expansion of HASHBUF -/

/-- A byte read from the buffer is the byte at its offset (R10). -/
theorem memRead_getD (buf : List Byte) (addr : Nat) {n i : Nat} (hi : i < n) :
    (memRead buf addr n).getD i 0#8 = buf.getD (addr + i) 0#8 := by
  simp [memRead, List.getElem?_take_of_lt hi]

theorem memRead_length {buf : List Byte} {addr len : Nat} (hl : len ≤ buf.length - addr) :
    (memRead buf addr len).length = len := by
  simp [memRead, hl]

theorem blockAt_word (buf : List Byte) (addr : Nat) :
    (blockAt buf addr).word = encode (.block (le32 (buf.getD addr 0#8) (buf.getD (addr + 1) 0#8)
      (buf.getD (addr + 2) 0#8) (buf.getD (addr + 3) 0#8))) := by
  simp only [blockAt, Asm.word, memRead_getD _ _ Nat.one_pos, Nat.add_zero, BitVec.ofNat_toNat, BitVec.setWidth_eq]

/-- Each BLOCKB of the expansion sends one block word of the bytes read (R141, R46). -/
theorem blockAt_word_eq_blockWord (buf : List Byte) (addr : Nat) {len j : Nat} (hj : j < len / 4) :
    (blockAt buf (addr + 4 * j)).word = encode (.block (blockWord (memRead buf addr len) j)) := by
  simp (disch := omega) only [blockAt_word, blockWord, dataByte, memRead_getD, Nat.add_assoc]

theorem finalB_word (bs : List Byte) :
    (Asm.finalB (bs.map BitVec.toNat)).word = encode (.final (BitVec.ofNat 2 bs.length)
      (le32 (bs.getD 0 0#8) (bs.getD 1 0#8) (bs.getD 2 0#8) 0#8)) := by
  simp only [Asm.word, byteAt_map_toNat, List.length_map]

section
variable {buf : List Byte} {addr len : Nat} (hl : len ≤ buf.length - addr)
include hl

/-- The FINALB of the expansion sends the tail of the bytes read (R141, R47). -/
theorem finalB_word_of_held :
    (Asm.finalB ((memRead buf (addr + 4 * (len / 4)) (len % 4)).map BitVec.toNat)).word =
      encode (.final (BitVec.ofNat 2 (len % 4)) (tailWord (memRead buf addr len))) := by
  have hlen : (memRead buf (addr + 4 * (len / 4)) (len % 4)).length = len % 4 := memRead_length (by omega)
  have hbyte : ∀ i, (memRead buf (addr + 4 * (len / 4)) (len % 4)).getD i 0#8 =
      if i < len % 4 then dataByte (memRead buf addr len) (4 * (len / 4) + i) else 0#8 := by
    intro i
    split
    next hi => rw [memRead_getD _ _ hi, dataByte, memRead_getD _ _ (by omega), Nat.add_assoc]
    next hi => exact List.getD_eq_default _ _ (by omega)
  rw [finalB_word, tailWord_eq, hlen]
  simp only [hbyte, memRead_length hl]

/-- HASHBUF over bytes the buffer holds is the session that hashes them (R141). -/
theorem hashBufWords_eq (seed : Word) :
    hashBufWords buf seed addr len = (hashCommands seed (memRead buf addr len)).map encode := by
  have hblocks : ((List.range (len / 4)).map (fun j => blockAt buf (addr + 4 * j))).map Asm.word =
      ((blockWords (memRead buf addr len)).map Instr.block).map encode := by
    simp only [blockWords, memRead_length hl, List.map_map]
    exact List.map_congr_left fun j hj => blockAt_word_eq_blockWord _ _ (List.mem_range.mp hj)
  have hinit : (Asm.init seed.toNat).word = encode (.init seed) := by simp [Asm.word]
  rw [hashBufWords, expandHashBuf, hashCommands, memRead_length hl, List.map_cons, List.map_append, hinit, hblocks,
    List.map_cons, finalB_word_of_held hl, List.map_cons, List.map_append]
  rfl

/-- The assembler takes a HASHBUF over bytes the buffer holds (R69, R141). -/
theorem assemble_hashBuf (seed : Word) :
    assemble buf (.hashBuf seed.toNat addr len) = some (hashBufWords buf seed addr len) := by
  have hwf : (AsmLine.hashBuf seed.toNat addr len).wellFormed buf = true := by
    simp [AsmLine.wellFormed, hl, seed.isLt]
  rw [assemble, if_pos hwf]
  rfl

/-- HASHBUF runs from any quiescent state without a fault, as the session that hashes the bytes it reads (R142). -/
theorem hostRun_hashBufWords (seed : Word) {s : State} (hb : s.busy = false) :
    hostRun (hashBufWords buf seed addr len) s = .next (afterCommands (hashCommands seed (memRead buf addr len))
      (loadProgram (hashBufWords buf seed addr len) s)) := by
  rw [hashBufWords_eq hl, hostRun, List.length_map]
  exact runProgram_of_legalAlong ((State.busy_eq_false s).mp hb) (presents_loadProgram _ s)
    (legalAlong_hashCommands _ _ _)

end

/-- Settles O47: the words are a session's, whose commands are all legal and leave the digest. -/
theorem hashBufComputesMurmur3 : Obligations.HashBufComputesMurmur3 := by
  intro buf seed addr len s hb hl
  have hrun := hostRun_hashBufWords hl seed hb
  obtain ⟨hh, hlen, hactive, hdone, hflight⟩ := afterCommands_hashCommands seed (memRead buf addr len)
    (loadProgram (hashBufWords buf seed addr len) s)
  obtain ⟨herr, hecause⟩ := afterCommands_error (hashCommands seed (memRead buf addr len))
    (loadProgram (hashBufWords buf seed addr len) s)
  rw [memRead_length hl] at hlen
  exact ⟨_, _, assemble_hashBuf hl seed, hrun, coreRun_of_runProgram hrun, hh, hlen, hactive, hdone,
    (State.busy_eq_false _).mpr hflight, herr, hecause⟩

/-- Settles O48: each run leaves the digest and the number of the bytes it reads, and the bytes are the same. -/
theorem digestIndependentOfEarlierState : Obligations.DigestIndependentOfEarlierState := by
  intro buf buf' seed addr addr' len s s' hb hb' hl hl' hdata
  have hsame : memRead buf addr len = memRead buf' addr' len := hdata
  obtain ⟨hh, hlen, -⟩ := afterCommands_hashCommands seed (memRead buf addr len)
    (loadProgram (hashBufWords buf seed addr len) s)
  obtain ⟨hh', hlen', -⟩ := afterCommands_hashCommands seed (memRead buf' addr' len)
    (loadProgram (hashBufWords buf' seed addr' len) s')
  exact ⟨_, _, hostRun_hashBufWords hl seed hb, hostRun_hashBufWords hl' seed hb',
    by rw [hh, hh', hsame], by rw [hlen, hlen', hsame]⟩

end Sys2Proof.Machine
end

section
/-! The cause of an illegal command by its condition, and what its completion records (R150 to R152). -/

namespace Sys2Proof

/-- The words of the commands that need a session: BLOCK and FINAL with their reserved fields clear (R24, R66). -/
theorem decode_needsSession_iff (w : CmdWord) :
    (∃ i, decode w = .ok i ∧ Machine.needsSession i = true) ↔
      w.toNat % 2 ^ 32 = 2 ∨ (w.toNat % 16 = 3 ∧ w.toNat / 64 % 2 ^ 26 = 0) := by
  rcases decode_cases w with ⟨hw, h⟩ | ⟨hw, h⟩ | ⟨hw, h⟩ | ⟨hw, h⟩ | ⟨hw, h⟩ <;>
    simp [h, Machine.needsSession] <;> omega

end Sys2Proof

namespace Sys2Proof.Machine

/-! ## Each cause by its condition -/

theorem illegalCause_eq_reservedOpcode_iff (w : CmdWord) (s : State) :
    illegalCause w s = some .reservedOpcode ↔ decode w = .error .reservedOpcode := by
  cases hd : decode w with
  | error e => cases e <;> simp [illegalCause_of_error s hd, causeOfDecodeError]
  | ok i => simp [illegalCause_of_ok s hd]

theorem illegalCause_eq_reservedField_iff (w : CmdWord) (s : State) :
    illegalCause w s = some .reservedField ↔ decode w = .error .reservedField := by
  cases hd : decode w with
  | error e => cases e <;> simp [illegalCause_of_error s hd, causeOfDecodeError]
  | ok i => simp [illegalCause_of_ok s hd]

theorem illegalCause_eq_notActive_iff (w : CmdWord) (s : State) :
    illegalCause w s = some .notActive ↔
      (∃ i, decode w = .ok i ∧ needsSession i = true) ∧ s.active = false := by
  cases hd : decode w with
  | error e => cases e <;> simp [illegalCause_of_error s hd, causeOfDecodeError]
  | ok i => simp [illegalCause_of_ok s hd]

/-! ## What a completion does to the error record -/

/-- A legal command leaves the error record (R152). -/
theorem legalResult_error (i : Instr) (s : State) :
    (legalResult i s).err = s.err ∧ (legalResult i s).ecause = s.ecause := by
  cases i <;> simp

theorem afterWord_error_of_legal {w : CmdWord} {s : State} (hc : illegalCause w s = none) :
    (afterWord w s).err = s.err ∧ (afterWord w s).ecause = s.ecause := by
  obtain ⟨i, hd, -⟩ := (legal_iff w s).mp hc
  rw [afterWord_of_legal hc hd]
  exact legalResult_error i s

/-- Settles O35: each cause is an answer of the decoder or the missing session, and an illegal command's completion
is R152's record. -/
theorem illegalCauseTable : Obligations.IllegalCauseTable := by
  refine ⟨fun w s => ⟨?_, ?_, ?_, afterWord w s, completeWord_eq w s, fun c hc => ?_, fun hc => ?_⟩,
    rfl, rfl, rfl, rfl⟩
  · rw [illegalCause_eq_reservedOpcode_iff, decode_eq_reservedOpcode_iff]
    omega
  · rw [illegalCause_eq_reservedField_iff, decode_eq_reservedField_iff]
    omega
  · rw [illegalCause_eq_notActive_iff, decode_needsSession_iff, ← and_assoc, ← and_assoc]
    refine and_congr_left fun _ => ?_
    omega
  · rw [afterWord_of_illegal hc]
    exact ⟨rfl, rfl⟩
  · exact (afterWord_error_of_legal hc).2

end Sys2Proof.Machine
end

section
/-! The run of a host program of any words, legal or not, beside the run that keeps faults (R145, R163). -/

namespace Sys2Proof.Machine

/-- The state that a presented word of a host program leaves, once the host has moved on (R190). -/
def afterPresented (w : CmdWord) (s : State) : State := afterWord w s.leaveReset.advance

/-- The state that a host program of any words leaves. -/
def afterProgram (ws : List CmdWord) (s : State) : State := ws.foldl (fun s w => afterPresented w s) s

/-- The host still has exactly the words `ws` to present (R26). -/
def PresentsWords (s : State) (ws : List CmdWord) : Prop :=
  s.program.drop s.position = ws.map HostMove.present

@[simp] theorem afterProgram_nil (s : State) : afterProgram [] s = s := rfl

@[simp] theorem afterProgram_cons (w : CmdWord) (ws : List CmdWord) (s : State) :
    afterProgram (w :: ws) s = afterProgram ws (afterPresented w s) := rfl

@[simp] theorem afterPresented_inFlight (w : CmdWord) (s : State) : (afterPresented w s).inFlight = none :=
  afterWord_inFlight _ _

theorem presentsWords_loadProgram (ws : List CmdWord) (s : State) : PresentsWords (loadProgram ws s) ws := rfl

/-! ## The error record along a program -/

/-- The legality of the word is the same once the host has moved on. -/
theorem illegalCause_leaveReset_advance (w : CmdWord) (s : State) :
    illegalCause w s.leaveReset.advance = illegalCause w s :=
  illegalCause_congr w (by simp)

theorem afterPresented_error_of_legal {w : CmdWord} {s : State} (hc : illegalCause w s = none) :
    (afterPresented w s).err = s.err ∧ (afterPresented w s).ecause = s.ecause := by
  simpa [afterPresented] using afterWord_error_of_legal ((illegalCause_leaveReset_advance w s).trans hc)

/-- An illegal word sets `ERR` and records its cause if it is the first (R24, R152). -/
theorem afterPresented_error_of_illegal {w : CmdWord} {s : State} {c : Cause} (hc : illegalCause w s = some c) :
    (afterPresented w s).err = true ∧ (afterPresented w s).ecause = if s.err then s.ecause else c.code := by
  rw [afterPresented, afterWord_of_illegal ((illegalCause_leaveReset_advance w s).trans hc)]
  simp

/-- An error record is sticky over one word, whatever it is (R24). -/
theorem afterPresented_error_of_err (w : CmdWord) {s : State} (he : s.err = true) :
    (afterPresented w s).err = true ∧ (afterPresented w s).ecause = s.ecause := by
  cases hc : illegalCause w s with
  | none => simpa [he] using afterPresented_error_of_legal hc
  | some c => simpa [he] using afterPresented_error_of_illegal hc

/-- An error record is sticky over a whole program: the first cause stays (R24). -/
theorem afterProgram_error_of_err (ws : List CmdWord) {s : State} (he : s.err = true) :
    (afterProgram ws s).err = true ∧ (afterProgram ws s).ecause = s.ecause := by
  induction ws generalizing s with
  | nil => exact ⟨he, rfl⟩
  | cons w ws ih =>
    obtain ⟨herr, hecause⟩ := afterPresented_error_of_err w he
    simpa [hecause] using ih herr

/-! ## The two runs -/

section
variable {s : State} {w : CmdWord} {ws : List CmdWord}

theorem PresentsWords.nextMove_eq (hp : PresentsWords s (w :: ws)) : nextMove s = some (.present w) := by
  have hhead := congrArg List.head? hp
  simpa [nextMove, List.head?_drop] using hhead

theorem PresentsWords.afterPresented (hp : PresentsWords s (w :: ws)) :
    PresentsWords (Machine.afterPresented w s) ws := by
  obtain ⟨hprogram, hposition, -⟩ := afterWord_host w s.leaveReset.advance
  have htail := congrArg List.tail hp
  simpa [PresentsWords, Machine.afterPresented, hprogram, hposition, List.tail_drop] using htail

/-- The step that makes a presented word completes it, legal or not (R152, R190). -/
theorem step_of_presented (hf : s.inFlight = none) (hm : nextMove s = some (.present w)) :
    step s = .next (afterPresented w s) := by
  rw [step_of_move hf hm, runMove_eq, afterMove, State.accept, afterWord_flight, afterPresented]

/-- The block goes on after an illegal command, so its run answers a state for every program (R152). -/
theorem coreRun_of_presentsWords (hf : s.inFlight = none) (hp : PresentsWords s ws) :
    Host.Core.run Sys2Proof.core ws.length s = .next (afterProgram ws s) := by
  induction ws generalizing s with
  | nil => rfl
  | cons w ws ih =>
    have hstep := step_of_presented hf hp.nextMove_eq
    exact (coreRun_succ (M := Sys2Proof.core) hstep ws.length).trans
      (ih (afterPresented_inFlight w s) hp.afterPresented)

theorem pendingCause_of_presented (hm : nextMove s = some (.present w)) : pendingCause s = illegalCause w s := by
  simp [pendingCause, hm]

theorem runProgram_of_illegal {c : Cause} (hm : nextMove s = some (.present w)) (hc : illegalCause w s = some c)
    (k : Nat) : runProgram (k + 1) s = .fault (.illegalCommand c) := by
  simp [runProgram, pendingCause_of_presented hm, hc]

theorem runProgram_of_legal (hf : s.inFlight = none) (hm : nextMove s = some (.present w))
    (hc : illegalCause w s = none) (k : Nat) : runProgram (k + 1) s = runProgram k (afterPresented w s) := by
  simp [runProgram, pendingCause_of_presented hm, hc, step_of_presented hf hm]

/-- From `ERR = 0` the run that keeps faults ends as the block does when no command is illegal, and otherwise stops at
the first illegal one, whose cause the block records and keeps (R163). -/
theorem runProgram_agrees_with_err (hf : s.inFlight = none) (hp : PresentsWords s ws) (he : s.err = false) :
    ((afterProgram ws s).err = false ∧ runProgram ws.length s = .next (afterProgram ws s)) ∨
      ∃ c : Cause, (afterProgram ws s).err = true ∧ (afterProgram ws s).ecause = c.code ∧
        runProgram ws.length s = .fault (.illegalCommand c) := by
  induction ws generalizing s with
  | nil => exact .inl ⟨he, rfl⟩
  | cons w ws ih =>
    have hm := hp.nextMove_eq
    cases hc : illegalCause w s with
    | none =>
      obtain ⟨herr, -⟩ := afterPresented_error_of_legal hc
      rw [List.length_cons, runProgram_of_legal hf hm hc, afterProgram_cons]
      exact ih (afterPresented_inFlight w s) hp.afterPresented (herr.trans he)
    | some c =>
      obtain ⟨herr, hecause⟩ := afterPresented_error_of_illegal hc
      obtain ⟨herrEnd, hecauseEnd⟩ := afterProgram_error_of_err ws herr
      exact .inr ⟨c, herrEnd, by simpa [he] using hecauseEnd.trans hecause, runProgram_of_illegal hm hc ws.length⟩

end

/-- Settles O50: both runs of the loaded program, by induction on its words. -/
theorem runFaultsExactlyWhenErrIsSet : Obligations.RunFaultsExactlyWhenErrIsSet := by
  intro ws s hb he
  have hf := (State.busy_eq_false s).mp hb
  have hp := presentsWords_loadProgram ws s
  exact ⟨afterProgram ws (loadProgram ws s), coreRun_of_presentsWords hf hp, runProgram_agrees_with_err hf hp he⟩

end Sys2Proof.Machine
end

section
/-! What a reset edge does, and that no other edge clears `ERR` (R24, R181). -/

namespace Sys2Proof.Machine

/-- Reset wins over everything: a reset edge does not look at the command in flight or the command ports (R181). -/
theorem edge_of_rst {p : Pins} (s : State) (hr : p.rst = true) : edge p s = .next s.resetBlock := by
  simp [edge, hr]

/-- Nothing is accepted at a reset edge (R42, R181). -/
theorem not_accepted_of_rst {p : Pins} (s : State) (hr : p.rst = true) : accepted p s = false := by
  simp [accepted, hr]

/-- A completion, legal or not, leaves `ERR` set (R24, R152). -/
theorem afterWord_err_of_err (w : CmdWord) {s : State} (hs : s.err = true) : (afterWord w s).err = true := by
  cases hc : illegalCause w s with
  | none => exact (afterWord_error_of_legal hc).1.trans hs
  | some c => simp [afterWord_of_illegal hc]

/-- An edge with `rst = 0` leaves `ERR` set, whether it completes, waits, accepts or holds (R24). -/
theorem err_of_edge_of_err {p : Pins} {s t : State} (he : edge p s = .next t) (hr : p.rst = false)
    (hs : s.err = true) : t.err = true := by
  by_cases hw : ∀ f, s.inFlight = some f → 1 < f.left
  · obtain ⟨-, -, -, -, herr, -⟩ := (State.registers_eq_iff s t).mp (registers_eq_of_edge he hr hw)
    exact herr.trans hs
  · push Not at hw
    obtain ⟨f, hf, hl⟩ := hw
    rw [eq_afterWord_of_edge he hr hf hl]
    exact afterWord_err_of_err f.word hs

/-- Settles O29: a reset edge is `State.resetBlock` from any state and accepts nothing, and `ERR` survives every other
edge. -/
theorem resetEdge : Obligations.ResetEdge := by
  refine ⟨fun p s hr => ⟨⟨s.resetBlock, edge_of_rst s hr, ?_⟩, not_accepted_of_rst s hr⟩, fun p s t he hs ht => ?_⟩
  · simp
  · by_contra hr
    have herr := err_of_edge_of_err he (Bool.eq_false_of_not_eq_true hr) hs
    simp [ht] at herr

end Sys2Proof.Machine
end

section
/-! The decoder and the encoder undo each other, and the words of R60 and R61 written out (R60 to R66). -/

namespace Sys2Proof

/-- The encoder gives back the word a command was read from (R60, R65). -/
theorem encode_of_decode {w : CmdWord} {i : Instr} (hd : decode w = .ok i) : encode i = w := by
  obtain ⟨hinit, hblock, hfinal⟩ : opInit.toNat = 1 ∧ opBlock.toNat = 2 ∧ opFinal.toNat = 3 := by decide
  apply BitVec.eq_of_toNat_eq
  cases i with
  | init seed =>
    obtain ⟨hlow, rfl⟩ := (decode_eq_init_iff w seed).mp hd
    rw [encode, packCommand_toNat, dataField_toNat, BitVec.toNat_zero, hinit]
    omega
  | block k =>
    obtain ⟨hlow, rfl⟩ := (decode_eq_block_iff w k).mp hd
    rw [encode, packCommand_toNat, dataField_toNat, BitVec.toNat_zero, hblock]
    omega
  | final t d =>
    obtain ⟨⟨hop, hrsvd⟩, rfl, rfl⟩ := (decode_eq_final_iff w t d).mp hd
    rw [encode, packCommand_toNat, tlenField_toNat, dataField_toNat, hfinal]
    omega

/-- Settles O2: the fields of a packed word are the ones packed, so the decoder reads the command back. -/
theorem decodeOfEncode : Obligations.DecodeOfEncode :=
  decode_encode

/-- Settles O3: a word that decodes is its command's fields packed. -/
theorem encodeOfDecode : Obligations.EncodeOfDecode :=
  fun _ _ => encode_of_decode

/-- Settles O1, by evaluating the decoder on the nine words. -/
theorem decodeReadsWrittenWords : Obligations.DecodeReadsWrittenWords := by
  unfold Obligations.DecodeReadsWrittenWords
  decide

end Sys2Proof
end

section
/-! The flag invariants along the untimed step (R28). -/

namespace Sys2Proof.Machine

/-- Every host move keeps the flag invariants: a presented word completes, the other moves reset (R28). -/
theorem State.FlagsInv.afterMove {s : State} (hs : s.FlagsInv) (m : HostMove) : (Machine.afterMove m s).FlagsInv := by
  cases m with
  | present w => exact (hs.of_registers_eq (State.registers_accept s w)).afterWord w
  | reset => exact State.resetBlock_flagsInv s
  | resetDuring w => exact State.resetBlock_flagsInv (s.accept w)

/-- Every step of the untimed model keeps the flag invariants (R28). -/
theorem State.FlagsInv.step {s t : State} (hs : s.FlagsInv) (ht : Machine.step s = .next t) : t.FlagsInv := by
  have hleave : s.leaveReset.FlagsInv := hs.of_registers_eq (State.registers_leaveReset s)
  rcases step_cases s with ⟨f, -, h⟩ | ⟨m, -, -, h⟩ | ⟨-, -, h⟩ <;>
    obtain rfl := Host.Outcome.next.inj (h.symm.trans ht)
  · exact hleave.afterWord f.word
  · exact (hleave.of_registers_eq (t := s.leaveReset.advance) rfl).afterMove m
  · exact hleave

/-- Settles O44: a step completes a word, makes a host move or waits, and an edge keeps the invariants (R28). -/
theorem stepsKeepFlagInvariants : Obligations.StepsKeepFlagInvariants :=
  fun _ hs => ⟨fun _ => hs.step, fun _ _ => hs.edge⟩

/-- Settles O43, by evaluating the invariants and the observation at the reset state. -/
theorem resetKeepsFlagInvariants : Obligations.ResetKeepsFlagInvariants :=
  ⟨by decide, .of_none rfl, rfl, by decide⟩

end Sys2Proof.Machine
end

section
/-! What each command leaves, what it leaves alone, and its repetition (R52, R80, R95, R116, R150 to R152). -/

namespace Sys2Proof.Machine

/-! ## A command has its meaning, or raises cause 3 -/

/-- A command that finds the session it needs has its meaning (R24). -/
theorem exec_of_legal {i : Instr} {s : State} (hl : needsSession i = true → s.active = true) :
    exec i s = .next (legalResult i s) := by
  cases i with
  | init seed => exact exec_init seed s
  | block k => exact exec_block_of_active k (hl rfl)
  | final t d => exact execFinal_of_active t d (hl rfl)

/-- A command that needs a session and finds none records cause 3 alone (R150, R152). -/
theorem exec_of_not_active {i : Instr} {s : State} (hn : needsSession i = true) (ha : s.active = false) :
    exec i s = .next { s with err := true, ecause := if s.err then s.ecause else 3#2, inFlight := none } := by
  cases i with
  | init seed => simp [needsSession] at hn
  | block k => exact (completeActive_of_not_active _ ha).trans (raiseIllegal_eq _ s)
  | final t d => exact (completeActive_of_not_active _ ha).trans (raiseIllegal_eq _ s)

/-- Settles O14: INIT needs no session. -/
theorem initResult : Obligations.InitResult :=
  fun seed s => by rw [exec_init, legalResult_init]

/-- Settles O15: the session BLOCK needs is open. -/
theorem blockResult : Obligations.BlockResult :=
  fun k s ha => by rw [exec_block_of_active k ha, legalResult_block]

/-- Settles O16: the session FINAL needs is open, and its digest is R116's. -/
theorem finalResult : Obligations.FinalResult :=
  fun t d s ha => by
    rw [exec_of_legal fun _ => ha, legalResult_final, finalDigest, finalLen, zext32]

/-- Settles O17: BLOCK and FINAL both need a session. -/
theorem notActiveRaisesCauseThree : Obligations.NotActiveRaisesCauseThree :=
  fun _ _ _ _ ha => ⟨exec_of_not_active rfl ha, exec_of_not_active rfl ha⟩

/-! ## The frame -/

/-- Settles O18: a command has its meaning, which leaves the host's fields and the error record, or records cause 3. -/
theorem commandFrame : Obligations.CommandFrame := by
  intro i s t he
  by_cases hl : needsSession i = true → s.active = true
  · obtain rfl := Host.Outcome.next.inj ((exec_of_legal hl).symm.trans he)
    obtain ⟨hprogram, hposition, hdraws⟩ := legalResult_host i s
    have hb := (State.busy_eq_false _).mpr (legalResult_inFlight i s)
    refine ⟨⟨hprogram, hposition, hdraws, legalResult_justReset i s, hb⟩, fun _ => legalResult_error i s,
      fun ⟨hn, ha⟩ => ?_, ?_⟩
    · simp [hl hn] at ha
    · rintro k rfl
      simp
  · obtain ⟨hn, ha⟩ : needsSession i = true ∧ s.active = false := by simpa using hl
    obtain rfl := Host.Outcome.next.inj ((exec_of_not_active hn ha).symm.trans he)
    refine ⟨⟨rfl, rfl, rfl, rfl, rfl⟩, fun h => ?_, fun _ => ⟨rfl, rfl, rfl, rfl⟩, fun _ _ => ⟨rfl, rfl⟩⟩
    simp [hn, ha] at h

/-! ## Repetition and the empty input -/

/-- Settles O19: a second INIT writes what stands, a second BLOCK finds the session open and a second FINAL finds it
closed. -/
theorem repeatedCommands : Obligations.RepeatedCommands := by
  refine ⟨fun seed s t ht => ?_, fun k s t u ha ht hu => ?_, fun n m d e s t u ha ht hu => ?_⟩
  · obtain rfl := Host.Outcome.next.inj ((exec_init seed s).symm.trans ht)
    simp only [exec_init, legalResult_init]
  · obtain rfl := Host.Outcome.next.inj ((exec_block_of_active k ha).symm.trans ht)
    obtain rfl := Host.Outcome.next.inj ((exec_block_of_active k (by simpa using ha)).symm.trans hu)
    simp [BitVec.add_assoc]
  · obtain rfl := Host.Outcome.next.inj ((exec_of_legal fun _ => ha).symm.trans ht)
    obtain rfl := Host.Outcome.next.inj ((exec_of_not_active rfl (by simp)).symm.trans hu)
    simp

/-- Settles O20: INIT leaves length 0, and an empty tail leaves the seed for the avalanche mix. -/
theorem emptyInputDigest : Obligations.EmptyInputDigest := by
  intro seed d s t u ht hu
  obtain rfl := Host.Outcome.next.inj ((exec_init seed s).symm.trans ht)
  obtain rfl := Host.Outcome.next.inj ((exec_of_legal fun _ => by simp).symm.trans hu)
  have hlen : finalLen 0#32 0#2 = 0#32 := by decide
  simp [finalDigest, hlen]

end Sys2Proof.Machine
end

section
/-! Who writes `LEN` over one edge (R22). -/

namespace Sys2Proof.Machine

/-- An illegal command leaves `LEN` (R22). -/
theorem afterWord_len_of_illegal {w : CmdWord} {s : State} {c : Cause} (hc : illegalCause w s = some c) :
    (afterWord w s).len = s.len := by
  rw [afterWord_of_illegal hc]

/-- A command that needs a session counts its bytes only in one (R22, R24). -/
theorem afterWord_len_of_needsSession {w : CmdWord} {i : Instr} (s : State) (hd : decode w = .ok i)
    (hn : needsSession i = true) :
    (afterWord w s).len = if s.active then (legalResult i s).len else s.len := by
  cases ha : s.active with
  | true => rw [afterWord_of_active hd ha]; rfl
  | false => exact afterWord_len_of_illegal (illegalCause_of_not_active hd hn ha)

/-- FINAL counts its `TLEN` bytes, modulo `2^32` (R116). -/
theorem finalLen_toNat (len : Word) (n : BitVec 2) : (finalLen len n).toNat = (len.toNat + n.toNat) % 2 ^ 32 := by
  simp [finalLen, zext32]

/-- Settles O22: an edge resets, completes a word or leaves `LEN`, and a completed word counts as its command says. -/
theorem writersOfLen : Obligations.WritersOfLen := by
  refine ⟨fun p s t he => ⟨fun hr => ?_, fun f hr hf hl => ?_, fun hr hw => ?_⟩, rfl, fun s hb hj => ?_⟩
  · simp [eq_resetBlock_of_edge he hr]
  · obtain rfl := eq_afterWord_of_edge he hr hf hl
    rw [State.leaveReset_len]
    refine ⟨fun seed hd => ?_, fun k hd => ?_, fun n d hd => ?_, fun e hd => ?_⟩
    · simp [afterWord_of_init s hd]
    · rw [afterWord_len_of_needsSession s hd rfl, legalResult_block, apply_ite BitVec.toNat, BitVec.toNat_add,
        BitVec.toNat_ofNat]
    · rw [afterWord_len_of_needsSession s hd rfl, legalResult_final, apply_ite BitVec.toNat, finalLen_toNat]
    · exact afterWord_len_of_illegal (illegalCause_of_error s hd)
  · obtain ⟨-, hlen, -⟩ := (State.registers_eq_iff s t).mp (registers_eq_of_edge he hr hw)
    exact hlen
  · rw [sampleOutputs_quiescent hb hj]

end Sys2Proof.Machine
end

section
/-! The exception, the latency and the STATUS word (R23, R152, R189). -/

namespace Sys2Proof.Machine

/-- Settles O36: a completion leaves R152's record for an illegal word, and the error record alone for a legal one. -/
theorem illegalCommandRecordsOnly : Obligations.IllegalCommandRecordsOnly := by
  refine fun w s => ⟨fun c hc => ?_, fun hc => ⟨afterWord w s, completeWord_eq w s, afterWord_error_of_legal hc⟩⟩
  rw [completeWord_eq, afterWord_of_illegal hc]

/-- A legal command neither reads nor writes the error record (R152). -/
theorem legalResult_withError (i : Instr) (s : State) (e : Bool) (c : BitVec 2) :
    legalResult i { s with err := e, ecause := c } = { legalResult i s with err := e, ecause := c } := by
  cases i <;> rfl

/-- Settles O37: legality depends on `ACTIVE` alone, and a legal command does not read the error record. -/
theorem commandsRunNormallyAfterError : Obligations.CommandsRunNormallyAfterError := by
  intro w s t e c hc ht
  have hc' : illegalCause w { s with err := e, ecause := c } = none := (illegalCause_congr w rfl).trans hc
  obtain ⟨i, hd, -⟩ := (legal_iff w s).mp hc
  obtain rfl := Host.Outcome.next.inj ((completeWord_eq w s).symm.trans ht)
  refine ⟨hc', ?_⟩
  rw [completeWord_eq, afterWord_of_legal hc' hd, afterWord_of_legal hc hd, legalResult_withError]

/-! ## The latency -/

theorem latencyOf_of_legal {w : CmdWord} {i : Instr} {s : State} (hc : illegalCause w s = none)
    (hd : decode w = .ok i) : latencyOf w s = legalLatency i := by
  simp [latencyOf, hc, hd]

theorem latencyOf_of_illegal {w : CmdWord} {s : State} {c : Cause} (hc : illegalCause w s = some c) :
    latencyOf w s = Config.latIllegal := by
  simp [latencyOf, hc]

/-- Settles O34: a legal command has its kind's latency, and an illegal one `LAT_ILLEGAL`. -/
theorem latencyByCommand : Obligations.LatencyByCommand :=
  fun w s => ⟨latencyOf_bounds s w, fun _ hd => latencyOf_of_legal (illegalCause_of_init w hd) hd,
    fun _ hd ha => latencyOf_of_legal (illegalCause_of_active hd ha) hd,
    fun _ _ hd ha => latencyOf_of_legal (illegalCause_of_active hd ha) hd, fun _ => latencyOf_of_illegal⟩

/-! ## The STATUS word -/

/-- A flag appended at bit 0 shifts what stands above it by one bit. -/
theorem toNat_append_ofBool {n : Nat} (x : BitVec n) (b : Bool) :
    (x ++ BitVec.ofBool b).toNat = b.toNat + 2 * x.toNat :=
  (BitVec.toNat_concat x b).trans (by omega)

/-- Settles O24: the flags are appended one by one below `ECAUSE`. -/
theorem statusWordLayout : Obligations.StatusWordLayout := by
  intro s
  have hcause : ((0#26 : BitVec 26) ++ s.ecause).toNat = s.ecause.toNat := by
    rw [BitVec.toNat_append]
    simp
  have hstatus : (statusWord s).toNat = ((0#26 : BitVec 26) ++ s.ecause ++ BitVec.ofBool s.err ++
    BitVec.ofBool s.done ++ BitVec.ofBool s.active ++ BitVec.ofBool s.busy).toNat := rfl
  rw [hstatus, toNat_append_ofBool, toNat_append_ofBool, toNat_append_ofBool, toNat_append_ofBool, hcause]
  omega

end Sys2Proof.Machine
end

section
/-! The moves of the untimed step one by one, and that the step and the edge always answer (R44, R152, R190). -/

namespace Sys2Proof.Machine

/-- The state in which a presented command completes: the host has moved on, the word is accepted and the reset cycle
is over (R42, R190; log entry 6). -/
theorem accept_advance_leaveReset (w : CmdWord) (s : State) :
    s.leaveReset.advance.accept w =
      { s with position := s.position + 1, inFlight := some ⟨w, latencyOf w s⟩, justReset := false } := by
  rw [State.accept, latencyOf_congr w (show s.leaveReset.advance.active = s.active by simp)]
  rfl

/-- Presenting a word that decodes runs its command (R190). -/
theorem step_of_decoded {s : State} {w : CmdWord} {i : Instr} (hf : s.inFlight = none)
    (hm : nextMove s = some (.present w)) (hd : decode w = .ok i) :
    step s =
      exec i { s with position := s.position + 1, inFlight := some ⟨w, latencyOf w s⟩, justReset := false } := by
  rw [step_of_move hf hm, runMove, completeWord, hd, accept_advance_leaveReset]

/-- Settles O38: the next move presents the word, which completes as its command. -/
theorem stepRunsDecodedCommand : Obligations.StepRunsDecodedCommand :=
  fun _ _ _ => step_of_decoded

/-- Settles O39: a word that does not decode is illegal, and its completion records its cause. -/
theorem stepTakesExceptionOnReservedWord : Obligations.StepTakesExceptionOnReservedWord := by
  intro s w e hf hm hd
  rw [step_of_presented hf hm, afterPresented, afterWord_of_illegal (illegalCause_of_error _ hd)]
  congr 1
  cases e <;> ext1 <;> simp [hf, causeOfDecodeError, Cause.code]

/-- A reset move leaves R181's values at the host's next position (R190). -/
theorem resetBlock_advance_leaveReset {s : State} (hf : s.inFlight = none) :
    s.leaveReset.advance.resetBlock = { s with
      position := s.position + 1
      h := 0#32, len := 0#32, active := false, done := false, err := false, ecause := 0#2, justReset := true } := by
  ext1 <;> simp [hf]

/-- Settles O40: a completion, the two reset moves, which leave the same state, and the wait. -/
theorem stepOtherMoves : Obligations.StepOtherMoves := by
  refine fun s => ⟨fun f => step_of_inFlight, fun w hf hm => ?_, step_of_no_move⟩
  rw [← resetBlock_advance_leaveReset hf]
  rcases hm with hm | hm <;> exact step_of_move hf hm

/-! ## A placed command -/

theorem tableWord_toNat (w : Nat) : (tableWord 64 w).toNat = w % 2 ^ 64 := by
  rw [tableWord, BitVec.toNat_ofNat, Nat.mod_mod]

theorem decode_of_decodeTableWord {w : Nat} {i : Instr} (h : decodeTableWord 64 w = some i) :
    decode (tableWord 64 w) = .ok i := by
  rw [decodeTableWord] at h
  split at h
  next j hj => rw [hj, Option.some.inj h]
  · cases h

/-- A placed command is the host's next move (log entry 2). -/
theorem nextMove_placeCommand (s : State) (w : CmdWord) : nextMove (placeCommand s w) = some (.present w) := by
  simp [nextMove, placeCommand]

/-- Settles O42: the placed word is the host's next move, and what its command reads is the state's. -/
theorem placedCommandRunsNext : Obligations.PlacedCommandRunsNext := by
  intro s w i hd
  have hstep := step_of_decoded (s := placeCommand s (tableWord 64 w)) rfl
    (nextMove_placeCommand s (tableWord 64 w)) (decode_of_decodeTableWord hd)
  exact ⟨tableWord 64 w, _, _, tableWord_toNat w, hstep, rfl, rfl, rfl, rfl, rfl, rfl, rfl⟩

/-! ## The block never stops -/

/-- Every step answers a next state, whatever the block and the host are doing (R145, R152). -/
theorem exists_step (s : State) : ∃ t, step s = .next t := by
  rcases step_cases s with ⟨f, -, h⟩ | ⟨m, -, -, h⟩ | ⟨-, -, h⟩ <;> exact ⟨_, h⟩

/-- Every edge answers a next state, whatever the pins (R152). -/
theorem exists_edge (p : Pins) (s : State) : ∃ t, edge p s = .next t := by
  rcases edge_cases p s with ⟨-, h⟩ | ⟨f, -, -, -, h⟩ | ⟨f, -, -, -, h⟩ | ⟨-, -, -, h⟩ | ⟨-, -, -, h⟩ <;>
    exact ⟨_, h⟩

/-- Settles O41: each case of a step and of an edge has its next state. -/
theorem blockNeverStops : Obligations.BlockNeverStops :=
  fun s => ⟨exists_step s, fun p => exists_edge p s⟩

end Sys2Proof.Machine
end

section
/-! Edges one by one and in runs: the frame of an edge, idling, acceptance after reset, and the untimed step's
refinement (R161, R182, R190). -/

namespace Sys2Proof.Machine

/-- What an edge leaves of the host, and the reset cycle's mark (R45; log entries 3, 6, 11). -/
theorem edge_host {p : Pins} {s t : State} (he : edge p s = .next t) :
    t.program = s.program ∧ t.position = s.position ∧ t.draws = s.draws ∧ t.justReset = p.rst := by
  rcases edge_cases p s with ⟨hr, h⟩ | ⟨f, hr, -, -, h⟩ | ⟨f, hr, -, -, h⟩ | ⟨hr, -, -, h⟩ | ⟨hr, -, -, h⟩ <;>
    obtain rfl := Host.Outcome.next.inj (h.symm.trans he) <;> rw [hr]
  · simp
  · obtain ⟨hprogram, hposition, hdraws⟩ := afterWord_host f.word s.leaveReset
    exact ⟨hprogram, hposition, hdraws, by simp⟩
  all_goals simp

/-- Settles O57: no edge touches the host's fields, and each sets or clears the mark. -/
theorem edgeFrame : Obligations.EdgeFrame :=
  fun _ _ _ => edge_host

/-- An edge at a quiescent block that presents nothing holds the state, outside the reset cycle (R161). -/
theorem edge_idle {p : Pins} {s : State} (hb : s.busy = false) (hr : p.rst = false) (hv : p.cmdValid = false) :
    edge p s = .next s.leaveReset := by
  simp [edge_quiescent hr hb, accepted_of_quiescent hr hb, hv]

/-- Settles O31: every idle edge holds the registers, and the first one clears the mark. -/
theorem idleBlockHoldsItsState : Obligations.IdleBlockHoldsItsState := by
  intro ps s hb hps
  induction ps generalizing s with
  | nil => simp
  | cons p ps ih =>
    obtain ⟨⟨hr, hv⟩, hrest⟩ := List.forall_mem_cons.mp hps
    rw [runEdges_cons_next (edge_idle hb hr hv), ih s.leaveReset hb hrest]
    simp [State.leaveReset]

/-- Settles O30: a reset edge leaves the block quiescent, so what is presented next is accepted. -/
theorem firstEdgeAfterReset : Obligations.FirstEdgeAfterReset := by
  intro p q s t hr he hq hv
  obtain rfl := eq_resetBlock_of_edge he hr
  have hready : cmdReady q.rst s.resetBlock = true := (cmdReady_iff _ _).mpr ⟨rfl, hq⟩
  have ha : accepted q s.resetBlock = true := (accepted_iff _ _).mpr ⟨hq, hv, hready⟩
  exact ⟨hready, ha, rfl, _, edge_of_accepted ha⟩

/-- Settles O28: the step and the clocked run both leave what the word's completion leaves. -/
theorem clockedCommandRefinesStep : Obligations.ClockedCommandRefinesStep := by
  intro s w qs hb hm hqs hl
  have ha : accepted ⟨false, true, w⟩ s.advance = true := accepted_of_quiescent rfl hb
  have hlat : qs.length = latencyOf w s.advance := hl.trans (latencyOf_congr w (State.advance_active s).symm)
  exact ⟨afterPresented w s, step_of_presented ((State.busy_eq_false s).mp hb) hm,
    runEdges_accepted_complete ha hqs hlat⟩

/-- Settles O56: an edge at one block replaces that block's state alone. -/
theorem blocksShareNoState : Obligations.BlocksShareNoState := by
  intro i p blocks s hs
  obtain ⟨t, ht⟩ := exists_edge p s
  obtain ⟨hi, -⟩ := List.getElem?_eq_some_iff.mp hs
  exact ⟨blocks.set i t, t, by simp [edgeAt, hs, ht], ht, List.getElem?_set_self hi,
    fun j hj => List.getElem?_set_ne hj.symm⟩

end Sys2Proof.Machine
end

section
/-! What the outputs show, and that reading them changes nothing (R45, R51). -/

namespace Sys2Proof.Machine

/-- STATUS while busy has bit 0 set and its free bits above (R45). -/
theorem busyStatus_getLsbD (free : Word) (i : Nat) :
    (busyStatus free).getLsbD i = (free.getLsbD i || decide (i = 0)) := by
  simp [busyStatus, BitVec.getLsbD_one]

/-- Settles O32: the three kinds of read, and the bits of a busy STATUS. -/
theorem outputsShow : Obligations.OutputsShow := by
  refine fun s => ⟨sampleOutputs_quiescent, fun hb hj => ?_, fun rst => sampleOutputs_resetCycle⟩
  rw [sampleOutputs_busy hb hj]
  refine ⟨rfl, rfl, rfl, ?_, fun i hi => ?_, rfl⟩
  · simp [busyStatus_getLsbD]
  · simp [busyStatus_getLsbD, hi.ne', drawn]

/-! ## Another count of draws -/

theorem afterWord_draws (w : CmdWord) (s : State) (n : Nat) :
    afterWord w { s with draws := n } = { afterWord w s with draws := n } := by
  obtain ⟨hprogram, hposition, -⟩ := afterWord_host w s
  calc afterWord w { s with draws := n } = withHost (afterWord w s) s.program s.position n :=
        afterWord_withHost w s s.program s.position n
    _ = { afterWord w s with draws := n } := by rw [← hprogram, ← hposition]; rfl

/-- A presented word leaves what its completion leaves, as if it had not been in flight (R190). -/
theorem afterMove_present (w : CmdWord) (s : State) : afterMove (.present w) s = afterWord w s :=
  afterWord_flight w s _

theorem afterMove_draws (m : HostMove) (s : State) (n : Nat) :
    afterMove m { s with draws := n } = { afterMove m s with draws := n } := by
  cases m with
  | present w =>
    rw [afterMove_present, afterMove_present]
    exact afterWord_draws w s n
  | reset => rfl
  | resetDuring w => rfl

/-- No edge reads the count of draws (R51). -/
theorem edge_draws {p : Pins} {s t : State} (n : Nat) (he : edge p s = .next t) :
    edge p { s with draws := n } = .next { t with draws := n } := by
  rcases edge_cases p s with ⟨hr, h⟩ | ⟨f, hr, hf, hl, h⟩ | ⟨f, hr, hf, hl, h⟩ | ⟨hr, hf, hv, h⟩ | ⟨hr, hf, hv, h⟩ <;>
    obtain rfl := Host.Outcome.next.inj (h.symm.trans he)
  · exact edge_of_rst _ hr
  · rw [edge_inFlight (s := { s with draws := n }) hr hf, if_pos hl]
    exact congrArg _ (afterWord_draws f.word s.leaveReset n)
  · rw [edge_inFlight (s := { s with draws := n }) hr hf, if_neg (Nat.not_le.mpr hl)]
    rfl
  · have hb := (State.busy_eq_false { s with draws := n }).mpr hf
    exact edge_of_accepted ((accepted_of_quiescent hr hb).trans hv)
  · exact edge_idle ((State.busy_eq_false _).mpr hf) hr hv

/-- No step reads the count of draws (R51). -/
theorem step_draws {s t : State} (n : Nat) (ht : step s = .next t) :
    step { s with draws := n } = .next { t with draws := n } := by
  rcases step_cases s with ⟨f, hf, h⟩ | ⟨m, hf, hm, h⟩ | ⟨hf, hm, h⟩ <;>
    obtain rfl := Host.Outcome.next.inj (h.symm.trans ht)
  · rw [step_of_inFlight (s := { s with draws := n }) hf, completeWord_eq]
    exact congrArg _ (afterWord_draws f.word s.leaveReset n)
  · rw [step_of_move (s := { s with draws := n }) hf hm, runMove_eq]
    exact congrArg _ (afterMove_draws m s.leaveReset.advance n)
  · exact step_of_no_move hf hm

/-- A read changes at most the count of draws (R51). -/
theorem sampleOutputs_draws (rst : Bool) (s : State) : { (sampleOutputs rst s).2 with draws := s.draws } = s := by
  unfold sampleOutputs
  split
  · rfl
  · split <;> rfl

/-- Settles O33: a read can only add to the count of draws, and nothing that is defined reads the count. -/
theorem readsHaveNoSideEffect : Obligations.ReadsHaveNoSideEffect := by
  refine ⟨sampleOutputs_draws, fun _ _ _ n => edge_draws n, fun _ _ n => step_draws n, fun s n hb hj => ?_⟩
  rw [sampleOutputs_quiescent (s := { s with draws := n }) hb hj, sampleOutputs_quiescent hb hj]
  rfl

/-! ## The reset cycle -/

/-- No reachable state has a command in flight in the reset cycle: only a reset edge sets the mark (R45, R181). -/
theorem Reachable.not_busy_of_justReset {s : State} (hs : Reachable s) : s.justReset = true → s.busy = false := by
  refine hs.invariant (P := fun s => s.justReset = true → s.busy = false) (fun _ => rfl) fun p s t _ he ht => ?_
  obtain ⟨-, -, -, hmark⟩ := edge_host he
  rw [eq_resetBlock_of_edge he (hmark.symm.trans ht)]
  rfl

/-- Settles O58: the reads at a reset edge and at the next edge are in the reset cycle, and an idle edge leaves it with
the reset state. -/
theorem resetCycleOutputs : Obligations.ResetCycleOutputs := by
  refine ⟨fun p q s t u hr he hu => ?_, fun s hs => hs.not_busy_of_justReset⟩
  obtain rfl := eq_resetBlock_of_edge he hr
  obtain ⟨-, -, -, hmark⟩ := edge_host hu
  rw [sampleOutputs_resetCycle (.inl hr), sampleOutputs_resetCycle (.inr (State.resetBlock_justReset s))]
  refine ⟨by simp [cmdReady, hr, drawn], by simp [cmdReady, State.busy, drawn], fun hq => ⟨hmark.trans hq, fun hv => ?_⟩⟩
  obtain rfl := Host.Outcome.next.inj ((edge_idle rfl hq hv).symm.trans hu)
  rw [sampleOutputs_quiescent rfl rfl]
  simp [statusWord, State.busy]

end Sys2Proof.Machine
end

section
/-! The host's handshake duty along a run of edges (R186). -/

namespace Sys2Proof.Machine

/-- A run of edges always ends in a state (R152). -/
theorem exists_runEdges (ps : List Pins) (s : State) : ∃ t, runEdges ps s = .next t := by
  induction ps generalizing s with
  | nil => exact ⟨s, rfl⟩
  | cons p ps ih =>
    obtain ⟨t, ht⟩ := exists_edge p s
    rw [runEdges_cons_next ht]
    exact ih t

/-- The duty at the first edge, and along the rest of the run. -/
theorem hostHoldsCommand_cons_cons {p q : Pins} {ps : List Pins} {s t : State} (he : edge p s = .next t) :
    hostHoldsCommand (p :: q :: ps) s = (keepsCommand p q s && hostHoldsCommand (q :: ps) t) := by
  rw [hostHoldsCommand, he]

/-- What the duty asks after one edge: a command that waits is presented again, unchanged (R186). -/
theorem keepsCommand_iff (p q : Pins) (s : State) :
    keepsCommand p q s = true ↔
      (p.cmdValid = true → cmdReady p.rst s = false → q.cmdValid = true ∧ q.cmdWord = p.cmdWord) := by
  cases hv : p.cmdValid <;> cases hc : cmdReady p.rst s <;> simp [keepsCommand, hv, hc]

/-- The duty along a run is the duty at each pair of neighbouring edges, at the state that the edges before them leave. -/
theorem hostHoldsCommand_iff (ps : List Pins) (s : State) :
    hostHoldsCommand ps s = true ↔
      ∀ (pre : List Pins) (p q : Pins) (post : List Pins) (t : State), ps = pre ++ p :: q :: post →
        runEdges pre s = .next t → keepsCommand p q t = true := by
  induction ps generalizing s with
  | nil => simp [hostHoldsCommand]
  | cons p₀ ps ih =>
    obtain ⟨u, hu⟩ := exists_edge p₀ s
    cases ps with
    | nil =>
      refine ⟨fun _ pre p q post t h => ?_, fun _ => rfl⟩
      have := congrArg List.length h
      simp at this
      omega
    | cons q₀ ps =>
      rw [hostHoldsCommand_cons_cons hu, Bool.and_eq_true, ih u]
      constructor
      · rintro ⟨hfirst, hrest⟩ pre p q post t h hrun
        cases pre with
        | nil =>
          obtain ⟨rfl, rfl, -⟩ : p₀ = p ∧ q₀ = q ∧ ps = post := by simpa using h
          obtain rfl := Host.Outcome.next.inj hrun
          exact hfirst
        | cons r pre =>
          obtain ⟨rfl, htail⟩ := List.cons_eq_cons.mp h
          exact hrest pre p q post t htail ((runEdges_cons_next hu pre).symm.trans hrun)
      · intro hall
        refine ⟨hall [] p₀ q₀ ps s rfl rfl, fun pre p q post t h hrun => ?_⟩
        exact hall (p₀ :: pre) p q post t (congrArg (p₀ :: ·) h) ((runEdges_cons_next hu pre).trans hrun)

/-- A host that does its duty is admitted, and its run is the block's (R146, R186). -/
theorem runPins_of_holds {ps : List Pins} {s : State} (h : hostHoldsCommand ps s = true) :
    runPins ps s = runEdges ps s ∧ ∃ t, runPins ps s = .next t := by
  have hrun : runPins ps s = runEdges ps s := if_pos h
  exact ⟨hrun, hrun ▸ exists_runEdges ps s⟩

/-- Settles O55: the duty along a run is the duty at each pair of its edges, and `runPins` checks it. -/
theorem changedCommandIsNotAdmitted : Obligations.ChangedCommandIsNotAdmitted := by
  refine ⟨fun pre p q ps s t hrun hv hready hchange => if_neg fun hholds => ?_, fun ps s hkeep => ?_,
    fun ps s => runPins_of_holds⟩
  · have hkeep := (hostHoldsCommand_iff _ s).mp hholds pre p q ps t rfl hrun
    obtain ⟨hqv, hqw⟩ := (keepsCommand_iff p q t).mp hkeep hv hready
    simp [hqv, hqw] at hchange
  · refine runPins_of_holds ((hostHoldsCommand_iff ps s).mpr fun pre p q post t h hrun => ?_)
    exact (keepsCommand_iff p q t).mpr (hkeep pre p q post t h hrun)

end Sys2Proof.Machine
end

section
/-! A host program driven at the clock beside its untimed run (R189, R190). -/

namespace Sys2Proof.Machine

/-- The pins of an edge at which the host presents nothing. -/
def quietPins : Pins := ⟨false, false, 0#64⟩

/-- The pins that present one word and wait out its latency (R42, R189). -/
def commandPins (w : CmdWord) (s : State) : List Pins :=
  ⟨false, true, w⟩ :: List.replicate (latencyOf w s) quietPins

/-- The state that the words leave at the clock, each completed in turn. -/
def clockedEnd (ws : List CmdWord) (s : State) : State := ws.foldl (fun s w => afterWord w s.leaveReset) s

theorem clockedPins_cons (w : CmdWord) (ws : List CmdWord) (s : State) :
    clockedPins (w :: ws) s = commandPins w s ++ clockedPins ws (afterWord w s) := by
  simp [clockedPins, commandPins, quietPins, completeWord_eq]

/-- The pins do not depend on whether the reset cycle is over. -/
theorem clockedPins_leaveReset (ws : List CmdWord) (s : State) : clockedPins ws s.leaveReset = clockedPins ws s := by
  induction ws generalizing s with
  | nil => rfl
  | cons w ws ih =>
    rw [clockedPins_cons, clockedPins_cons, afterWord_leaveReset, ih, commandPins, latencyOf_leaveReset, commandPins]

theorem runEdges_commandPins (w : CmdWord) {s : State} (hb : s.busy = false) :
    runEdges (commandPins w s) s = .next (afterWord w s.leaveReset) :=
  runEdges_accepted_complete (p := ⟨false, true, w⟩) (accepted_of_quiescent rfl hb)
    (fun q hq => by rw [List.eq_of_mem_replicate hq]; rfl) List.length_replicate

/-! ## The duty -/

section
variable {s t : State}

/-- Where nothing is presented, or what is presented is accepted, the duty asks nothing of the next edge (R186). -/
theorem hostHoldsCommand_cons_of_free {p : Pins} (hfree : p.cmdValid = true → cmdReady p.rst s = true)
    (he : edge p s = .next t) (ps : List Pins) : hostHoldsCommand (p :: ps) s = hostHoldsCommand ps t := by
  cases ps with
  | nil => rfl
  | cons q ps =>
    have hkeep : keepsCommand p q s = true := (keepsCommand_iff p q s).mpr fun hv hready => by simp [hfree hv] at hready
    rw [hostHoldsCommand_cons_cons he, hkeep, Bool.true_and]

/-- Along edges that present nothing the duty asks nothing. -/
theorem hostHoldsCommand_append_of_quiet {qs : List Pins} (hq : ∀ q ∈ qs, q.cmdValid = false)
    (hrun : runEdges qs s = .next t) (ps : List Pins) :
    hostHoldsCommand (qs ++ ps) s = hostHoldsCommand ps t := by
  induction qs generalizing s with
  | nil => rw [List.nil_append, Host.Outcome.next.inj hrun]
  | cons q qs ih =>
    obtain ⟨hv, hrest⟩ := List.forall_mem_cons.mp hq
    obtain ⟨u, hu⟩ := exists_edge q s
    rw [List.cons_append, hostHoldsCommand_cons_of_free (by simp [hv]) hu,
      ih hrest ((runEdges_cons_next hu qs).symm.trans hrun)]

end

theorem hostHoldsCommand_commandPins_append (w : CmdWord) {s : State} (hb : s.busy = false) (ps : List Pins) :
    hostHoldsCommand (commandPins w s ++ ps) s = hostHoldsCommand ps (afterWord w s.leaveReset) := by
  have he : edge ⟨false, true, w⟩ s = .next (s.leaveReset.accept w) := edge_of_accepted (accepted_of_quiescent rfl hb)
  have hrun := (runEdges_cons_next he _).symm.trans (runEdges_commandPins w hb)
  rw [commandPins, List.cons_append, hostHoldsCommand_cons_of_free (fun _ => (cmdReady_iff _ _).mpr ⟨hb, rfl⟩) he]
  exact hostHoldsCommand_append_of_quiet (fun q hq => by rw [List.eq_of_mem_replicate hq]; rfl) hrun ps

/-! ## The whole program -/

/-- The clocked program is an admitted run, which completes its words in turn (R186, R189). -/
theorem runPins_clockedPins (ws : List CmdWord) {s : State} (hb : s.busy = false) :
    runPins (clockedPins ws s) s = .next (clockedEnd ws s) ∧ (clockedEnd ws s).busy = false := by
  suffices h : hostHoldsCommand (clockedPins ws s) s = true ∧
      runEdges (clockedPins ws s) s = .next (clockedEnd ws s) ∧ (clockedEnd ws s).busy = false by
    obtain ⟨hholds, hrun, hend⟩ := h
    obtain ⟨hadmitted, -⟩ := runPins_of_holds hholds
    exact ⟨hadmitted.trans hrun, hend⟩
  induction ws generalizing s with
  | nil => exact ⟨rfl, rfl, hb⟩
  | cons w ws ih =>
    have hnext : (afterWord w s.leaveReset).busy = false := (State.busy_eq_false _).mpr (afterWord_inFlight _ _)
    rw [clockedPins_cons, hostHoldsCommand_commandPins_append w hb, runEdges_append (runEdges_commandPins w hb),
      ← clockedPins_leaveReset, ← afterWord_leaveReset]
    exact ih hnext

/-- A command takes its accepting edge and its latency (R189). -/
theorem clockedPins_length_le (ws : List CmdWord) (s : State) :
    (clockedPins ws s).length ≤ ws.length * (Config.latMax + 1) := by
  induction ws generalizing s with
  | nil => simp [clockedPins]
  | cons w ws ih =>
    obtain ⟨-, hle⟩ := latencyOf_bounds w s
    have hrest := ih (afterWord w s)
    rw [clockedPins_cons, List.length_append, commandPins, List.length_cons, List.length_replicate, List.length_cons,
      Nat.succ_mul]
    omega

/-- The untimed run leaves the clocked run's machine, with the host's position moved on (R190). -/
theorem afterProgram_withHost (ws : List CmdWord) (s : State) (prog : List HostMove) (pos n : Nat) :
    afterProgram ws (withHost s prog pos n) = withHost (clockedEnd ws s) prog (pos + ws.length) n := by
  induction ws generalizing s pos with
  | nil => rfl
  | cons w ws ih =>
    have hword : afterPresented w (withHost s prog pos n) = withHost (afterWord w s.leaveReset) prog (pos + 1) n :=
      afterWord_withHost w s.leaveReset prog (pos + 1) n
    rw [afterProgram_cons, hword, ih, List.length_cons, Nat.add_assoc, Nat.add_comm 1]
    rfl

/-- Settles O51: both runs complete the words in turn, and the observation does not see the host. -/
theorem clockedProgramRefinesUntimedRun : Obligations.ClockedProgramRefinesUntimedRun := by
  intro ws s hb
  obtain ⟨hrun, hend⟩ := runPins_clockedPins ws hb
  have hload : loadProgram ws s = withHost s (ws.map HostMove.present) 0 s.draws := rfl
  refine ⟨clockedEnd ws s, afterProgram ws (loadProgram ws s), hrun,
    coreRun_of_presentsWords ((State.busy_eq_false s).mp hb) (presentsWords_loadProgram ws s), ?_, hend,
    clockedPins_length_le ws s⟩
  rw [hload, afterProgram_withHost]
  rfl

end Sys2Proof.Machine
end

section
/-! The digest by recursion on the bytes (R140). -/

namespace Sys2Proof.Machine

/-- What R140 folds into the accumulator before the length: the block words in order, then the tail. -/
def mixAll (h : Word) (data : List Byte) : Word :=
  tailMix ((blockWords data).foldl blockMix h) (tailWord data) (BitVec.ofNat 2 (data.length % 4))

section
variable (b0 b1 b2 b3 : Byte) (rest : List Byte)

theorem length_cons4_div : (b0 :: b1 :: b2 :: b3 :: rest).length / 4 = rest.length / 4 + 1 := by
  simp only [List.length_cons]
  omega

theorem length_cons4_mod : (b0 :: b1 :: b2 :: b3 :: rest).length % 4 = rest.length % 4 := by
  simp only [List.length_cons]
  omega

/-- Four bytes in front are one block word in front. -/
theorem blockWords_cons4 :
    blockWords (b0 :: b1 :: b2 :: b3 :: rest) = le32 b0 b1 b2 b3 :: blockWords rest := by
  have hshift : ∀ j, blockWord (b0 :: b1 :: b2 :: b3 :: rest) (j + 1) = blockWord rest j := fun _ => rfl
  rw [blockWords, length_cons4_div, List.range_succ_eq_map, List.map_cons, List.map_map]
  simp only [Function.comp_def, hshift]
  rfl

theorem tailWord_cons4 : tailWord (b0 :: b1 :: b2 :: b3 :: rest) = tailWord rest := by
  have hshift : ∀ i, dataByte (b0 :: b1 :: b2 :: b3 :: rest) (4 * (rest.length / 4 + 1) + i) =
      dataByte rest (4 * (rest.length / 4) + i) := fun i => by
    rw [show 4 * (rest.length / 4 + 1) + i = 4 * (rest.length / 4) + i + 4 by ring]
    rfl
  rw [tailWord_eq, tailWord_eq, length_cons4_div, length_cons4_mod]
  simp only [hshift]

theorem mixAll_cons4 (h : Word) :
    mixAll h (b0 :: b1 :: b2 :: b3 :: rest) = mixAll (blockMix h (le32 b0 b1 b2 b3)) rest := by
  rw [mixAll, blockWords_cons4, tailWord_cons4, length_cons4_mod, List.foldl_cons, mixAll]

end

/-- The tail word has only the bytes of the tail (R140). -/
theorem tailWord_toNat_lt (data : List Byte) : (tailWord data).toNat < 2 ^ (8 * (data.length % 4)) := by
  have hbyte : ∀ i, (if i < data.length % 4 then dataByte data (4 * (data.length / 4) + i) else 0#8).toNat <
      if i < data.length % 4 then 2 ^ 8 else 1 := fun i => by
    split
    · exact BitVec.isLt _
    · decide
  have h0 := hbyte 0
  have h1 := hbyte 1
  have h2 := hbyte 2
  rw [tailWord_eq, le32_toNat, BitVec.toNat_zero]
  have ht : data.length % 4 < 4 := Nat.mod_lt _ (by decide)
  interval_cases data.length % 4 <;> simp at h0 h1 h2 ⊢ <;> omega

/-- Packing a tail word drops nothing (R110). -/
theorem packTail_tailWord (data : List Byte) :
    packTail (tailWord data) (BitVec.ofNat 2 (data.length % 4)) = tailWord data := by
  have ht : (BitVec.ofNat 2 (data.length % 4)).toNat = data.length % 4 := by
    rw [BitVec.toNat_ofNat, Nat.mod_eq_of_lt (Nat.mod_lt _ (by decide))]
  apply BitVec.eq_of_toNat_eq
  rw [packTail_toNat, ht, Nat.mod_eq_of_lt (tailWord_toNat_lt data)]

/-- Fewer than four bytes are all tail (R140). -/
theorem tailWord_of_short {data : List Byte} (hlt : data.length < 4) :
    tailWord data = le32 (dataByte data 0) (dataByte data 1) (dataByte data 2) 0#8 := by
  have hbyte : ∀ i, (if i < data.length then dataByte data i else 0#8) = dataByte data i := fun i => by
    split
    · rfl
    next hi => exact (List.getD_eq_default _ _ (Nat.le_of_not_lt hi)).symm
  simp only [tailWord_eq, Nat.mod_eq_of_lt hlt, Nat.div_eq_of_lt hlt, Nat.mul_zero, Nat.zero_add, hbyte]

/-- Of one to three bytes only the tail is mixed in. -/
theorem mixAll_of_short (h : Word) {data : List Byte} (hpos : 0 < data.length) (hlt : data.length < 4) :
    mixAll h data = h ^^^ kmix (le32 (dataByte data 0) (dataByte data 1) (dataByte data 2) 0#8) := by
  have hblocks : blockWords data = [] :=
    List.eq_nil_of_length_eq_zero (by rw [blockWords_length, Nat.div_eq_of_lt hlt])
  have ht : BitVec.ofNat 2 (data.length % 4) ≠ 0#2 := fun h0 => by
    have := congrArg BitVec.toNat h0
    simp only [BitVec.toNat_ofNat] at this
    omega
  rw [mixAll, hblocks, tailMix_of_ne_zero _ _ ht, packTail_tailWord, List.foldl_nil, tailWord_of_short hlt]

/-- Settles O46: what the digest mixes in before the length satisfies the stream form's equations. -/
theorem murmurStreamForm : Obligations.MurmurStreamForm :=
  fun seed data => ⟨mixAll, fun h b0 b1 b2 b3 rest => mixAll_cons4 b0 b1 b2 b3 rest h, fun h => tailMix_zero h _,
    fun h b0 => mixAll_of_short h (data := [b0]) (by simp) (by simp),
    fun h b0 b1 => mixAll_of_short h (data := [b0, b1]) (by simp) (by simp),
    fun h b0 b1 b2 => mixAll_of_short h (data := [b0, b1, b2]) (by simp) (by simp), murmur3_eq seed data⟩

end Sys2Proof.Machine
end

section
/-! The words of a HASHBUF, and chained runs of it (R141, R144). -/

namespace Sys2Proof.Machine

/-- The tail bytes read from the buffer, in their places (R141, R47). -/
theorem tailWord_memRead {buf : List Byte} {addr len : Nat} (hl : len ≤ buf.length - addr) :
    let tail := fun i => if i < len % 4 then buf.getD (addr + 4 * (len / 4) + i) 0#8 else 0#8
    tailWord (memRead buf addr len) = le32 (tail 0) (tail 1) (tail 2) 0#8 := by
  have hbyte : ∀ i, i < len % 4 →
      dataByte (memRead buf addr len) (4 * (len / 4) + i) = buf.getD (addr + 4 * (len / 4) + i) 0#8 := fun i hi => by
    rw [dataByte, memRead_getD _ _ (by omega), Nat.add_assoc]
  simp +contextual only [tailWord_eq, memRead_length hl, hbyte]

/-- The block words read from the buffer, each from its four bytes (R141, R46). -/
theorem getElem_blockWords_memRead {buf : List Byte} {addr len j : Nat} (hl : len ≤ buf.length - addr)
    (hj : j < len / 4) :
    (blockWords (memRead buf addr len))[j]? = some (le32 (buf.getD (addr + 4 * j) 0#8)
      (buf.getD (addr + 4 * j + 1) 0#8) (buf.getD (addr + 4 * j + 2) 0#8) (buf.getD (addr + 4 * j + 3) 0#8)) := by
  have hget : (blockWords (memRead buf addr len))[j]? = some (blockWord (memRead buf addr len) j) := by
    simp [blockWords, memRead_length hl, hj]
  simp (disch := omega) only [hget, blockWord, dataByte, memRead_getD, Nat.add_assoc]

/-- Settles O49: HASHBUF's words are those of the session that hashes the bytes, read from the buffer. -/
theorem hashBufExpansion : Obligations.HashBufExpansion := by
  intro buf seed addr len hl tail
  have hblocks : (blockWords (memRead buf addr len)).length = len / 4 := by
    rw [blockWords_length, memRead_length hl]
  rw [hashBufWords_eq hl, hashCommands, memRead_length hl, tailWord_memRead hl]
  refine ⟨by simp [memRead_length hl], rfl, fun j hj => ?_, by simp [hblocks, tail]⟩
  rw [List.map_cons, List.getElem?_cons_succ, List.getElem?_map, List.getElem?_append_left (by simpa [hblocks] using hj),
    List.getElem?_map, getElem_blockWords_memRead hl hj]
  rfl

@[simp] theorem afterCommand_justReset (i : Instr) (s : State) : (afterCommand i s).justReset = false := by
  simp [afterCommand]

/-- A program of legal commands leaves the reset cycle's mark cleared (log entry 6). -/
theorem afterCommands_justReset (is : List Instr) {s : State} (hs : s.justReset = false) :
    (afterCommands is s).justReset = false := by
  induction is generalizing s with
  | nil => exact hs
  | cons i is ih => exact ih (afterCommand_justReset i s)

/-- A session ends outside the reset cycle, so its digest can be read at once (R45). -/
theorem afterCommands_hashCommands_justReset (seed : Word) (data : List Byte) (s : State) :
    (afterCommands (hashCommands seed data) s).justReset = false := by
  rw [hashCommands, afterCommands_cons]
  exact afterCommands_justReset _ (afterCommand_justReset _ _)

theorem chainRun_zero (buf : List Byte) (addr len : Nat) (seed : Word) (s : State) :
    chainRun buf addr len 0 seed s = .next (seed, s) := rfl

/-- The state that a HASHBUF of held bytes leaves (R142). -/
def afterHashBuf (buf : List Byte) (addr len : Nat) (seed : Word) (s : State) : State :=
  afterCommands (hashCommands seed (memRead buf addr len)) (loadProgram (hashBufWords buf seed addr len) s)

/-- A round over held bytes reads the digest they have and goes on with it as the seed (R144). -/
theorem chainRun_succ {buf : List Byte} {addr len : Nat} (hl : len ≤ buf.length - addr) (n : Nat) (seed : Word)
    {s : State} (hb : s.busy = false) :
    chainRun buf addr len (n + 1) seed s =
      chainRun buf addr len n (murmur3 seed (memRead buf addr len)) (afterHashBuf buf addr len seed s) := by
  obtain ⟨hh, -, -, -, hflight⟩ := afterCommands_hashCommands seed (memRead buf addr len)
    (loadProgram (hashBufWords buf seed addr len) s)
  have hread := sampleOutputs_quiescent ((State.busy_eq_false _).mpr hflight)
    (afterCommands_hashCommands_justReset seed (memRead buf addr len) (loadProgram (hashBufWords buf seed addr len) s))
  rw [chainRun, if_pos ((bufferHolds_iff buf addr len).mpr hl), hostRun_hashBufWords hl seed hb]
  simp only [hread, hh, afterHashBuf]

theorem afterHashBuf_busy (buf : List Byte) (addr len : Nat) (seed : Word) (s : State) :
    (afterHashBuf buf addr len seed s).busy = false := by
  obtain ⟨-, -, -, -, hflight⟩ := afterCommands_hashCommands seed (memRead buf addr len)
    (loadProgram (hashBufWords buf seed addr len) s)
  exact (State.busy_eq_false _).mpr hflight

/-- The rounds iterate the digest of the held bytes (R144). -/
theorem exists_chainRun {buf : List Byte} {addr len : Nat} (hl : len ≤ buf.length - addr) (n : Nat) (seed : Word)
    {s : State} (hb : s.busy = false) :
    ∃ t, chainRun buf addr len n seed s = .next ((fun h => murmur3 h (memRead buf addr len))^[n] seed, t) := by
  induction n generalizing seed s with
  | zero => exact ⟨s, chainRun_zero buf addr len seed s⟩
  | succ n ih =>
    rw [chainRun_succ hl n seed hb, Function.iterate_succ_apply]
    exact ih _ (afterHashBuf_busy buf addr len seed s)

/-- Settles O52: each round hashes with the digest read from the one before it. -/
theorem chainedRunsIterateTheDigest : Obligations.ChainedRunsIterateTheDigest := by
  refine fun buf addr len n seed s => ⟨fun hb hl => exists_chainRun hl n seed hb, fun hl hn => ?_⟩
  obtain ⟨m, rfl⟩ := Nat.exists_eq_succ_of_ne_zero hn.ne'
  rw [chainRun, if_neg (by simpa using hl)]

end Sys2Proof.Machine
end

section
/-! What the assembler takes and refuses (R69). -/

namespace Sys2Proof.Machine

/-- The assembler takes a written command exactly when it is well formed, as its one word (R69). -/
theorem assemble_cmd (buf : List Byte) (a : Asm) :
    assemble buf (.cmd a) = if a.wellFormed then some [a.word] else none := rfl

/-- Every written command but `.word64` is a command's encoding (R69, R70). -/
theorem exists_word_eq_encode {a : Asm} (ha : ∀ n, a ≠ .word64 n) : ∃ i, a.word = encode i := by
  cases a with
  | word64 n => exact absurd rfl (ha n)
  | _ =>
    simp only [Asm.word]
    exact ⟨_, rfl⟩

/-- Settles O53: the well-formedness of each form, its word, and the words that are encodings. -/
theorem assemblerAcceptsAndRefuses : Obligations.AssemblerAcceptsAndRefuses := by
  refine ⟨fun buf n => ⟨?_, ?_⟩, fun buf t n => ⟨?_, ?_⟩, fun buf w => ?_, fun buf a ws w ha hasm hw => ?_⟩
  · simp [assemble_cmd, Asm.wellFormed, Asm.word]
  · simp [assemble_cmd, Asm.wellFormed, Asm.word]
  · simp [assemble_cmd, Asm.wellFormed, Asm.word]
  · simp [assemble_cmd, Asm.wellFormed, Asm.word]
  · simp [assemble_cmd, Asm.wellFormed, Asm.word, w.isLt]
  · obtain ⟨i, hi⟩ := exists_word_eq_encode ha
    rw [assemble_cmd] at hasm
    split at hasm
    · obtain rfl := Option.some.inj hasm
      rw [List.mem_singleton.mp hw, hi]
      exact ⟨i, decode_encode i⟩
    · cases hasm

end Sys2Proof.Machine
end
